-- ==== Sys2Proof/Word.lean ====
section
/-! DEFINITION. The word types of the LS-8 core: the byte (00_scope R6, `XLEN` = 8), and the 9-bit
address in which the core computes instruction-stream addresses (20_memory R53). -/

namespace Sys2Proof

/-- A register, a memory byte, an operand byte, a data address or the PC (R6, R7). -/
abbrev Byte := BitVec 8

/-- An instruction-stream address PC+k before its range check, 9 bits (R53, R104, R110). -/
abbrev StreamAddr := BitVec 9

end Sys2Proof
end

