-- ==== Sys2Proof/Config.lean ====
section
/-! DEFINITION. The parameters of the machine (00_scope R6) that fix its reset state, and the size of
its memory. The default `OPCODE_MAP` stands in Decode.lean and `SP_INDEX` in
Machine/Ops.lean. `Machine.machineOf` takes the four OPEN parameters as arguments. -/

namespace Sys2Proof.Config

/-- `MEM_SIZE`: addresses 0..255 exist (R6, R35). -/
def memSize : Nat := 256

/-- `ENTRY_PC`: PC after reset. OPEN in the spec, default 0 (R6, R36). Log entry 2. -/
def entryPc : Byte := 0

/-- `REG_RESET`: R0 to R7 after reset. OPEN in the spec, default R0..R6 = 0x00, R7 = 0xF4
(R6, R36). Log entry 2. -/
def regReset : Vector Byte 8 := #v[0, 0, 0, 0, 0, 0, 0, 0xF4]

/-- What an address that the memory list does not mention reads as. The spec gives `IMAGE` no
default (R64). DESIGN CHOICE, unsafe for claims about `State.reset`'s own memory: log entry 1. -/
def unlistedByte : Byte := 0x00

end Sys2Proof.Config
end

