-- ==== Sys2Proof/Machine/State.lean ====
section
/-! DEFINITION. The state of the LS-8 core as plain data (10_state), its reset, and the reasons a step can
stop. -/

namespace Sys2Proof.Machine

/-- RUN (R32). -/
inductive RunState where
  | running
  | halted
  | errorHalted
deriving DecidableEq, Repr

/-- The field `ERR.cause`: the rows of R180, each under its name; its 3-bit code is `Cause.code`. -/
inductive Cause where
  | noError
  | invalidOpcode
  | divisionByZero
  | moduloByZero
  | registerIndexOutOfRange
  | memoryOutOfRange
  | unimplementedInstruction
deriving DecidableEq, Repr

/-- ERR, the error record (R33). -/
structure ErrorRecord where
  cause : Cause
  pc : Byte
  info : BitVec 9
deriving DecidableEq, Repr

/-- ERR after reset: cause 0, pc 0, info 0 (R36). -/
def ErrorRecord.clear : ErrorRecord := ⟨.noError, 0, 0⟩

/-- The kind of an output event: NUM from PRN, CHR from PRA (R112). -/
inductive OutKind where
  | num
  | chr
deriving DecidableEq, Repr

/-- One event of OUT (R35, R112). -/
structure OutEvent where
  kind : OutKind
  value : Byte
deriving DecidableEq, Repr

/-- MEM as a list of (address, byte); its canonical form is `Memory.wf` (Machine/Ops.lean). An
address not listed reads `Config.unlistedByte`. -/
abbrev Memory := List Host.Cell

/-- Everything the spec gives the machine (10_state). -/
structure State where
  /-- R0 to R7 (R20) -/
  regs : Vector Byte 8
  /-- PC (R25) -/
  pc : Byte
  /-- FL: bit 0 E, bit 1 G, bit 2 L, bits 7:3 always 0 (R29) -/
  fl : Byte
  /-- RUN (R32) -/
  run : RunState
  /-- ERR (R33) -/
  err : ErrorRecord
  /-- MEM[0..255] (R35) -/
  mem : Memory
  /-- OUT, oldest event first (R35) -/
  out : List OutEvent
deriving DecidableEq, Repr

/-- The reasons a step stops the host's run with a fault: NONE. Every exception of the spec is taken
as a next state in which RUN is ERROR_HALTED (R186), every address 0..255 reads and writes (R51, R52),
and no other address reaches memory (R53). -/
inductive Fault
deriving DecidableEq, Repr

/-- The reasons a step refuses an instruction. -/
inductive Refusal where
  /-- An arm of `exec` that has no meaning yet would raise it; safe. No arm does. -/
  | notModelled (mnemonic : String)
deriving DecidableEq, Repr

/-- Reset (R36, R200) with the open parameters `ENTRY_PC` and `REG_RESET`, on a memory that it does
not touch: `image` is `IMAGE` when the machine starts, and the memory of the state reset is applied
in at any later time (R201). -/
def State.resetWith (entryPc : Byte) (regReset : Vector Byte 8) (image : Memory) : State where
  regs := regReset
  pc := entryPc
  fl := 0
  run := .running
  err := ErrorRecord.clear
  mem := image
  out := []

/-- The machine right after reset: the default parameters of R36, nothing loaded (log entries 1, 2). -/
def State.reset : State := State.resetWith Config.entryPc Config.regReset []

end Sys2Proof.Machine
end

