-- ==== Sys2Proof/Machine/Ops.lean ====
section
/-! DEFINITION. The shared operations over memory, registers, PC and OUT; taking an exception (R186); and
the end of a tick (R100, R109 to R111). -/

namespace Sys2Proof.Machine

/-! ## Memory (20_memory) -/

/-- The byte at an address: the first entry for it, or what an unlisted address reads as (R51). -/
def Memory.read : Memory → Nat → Byte
  | [], _ => Config.unlistedByte
  | (k, v) :: m, a => if k = a then v else Memory.read m a

/-- Drop every entry for an address. -/
def Memory.erase (m : Memory) (a : Nat) : Memory := m.filter fun c => c.1 != a

/-- Put an entry before the first one of a higher address. -/
def Memory.insert : Memory → Nat → Byte → Memory
  | [], a, v => [(a, v)]
  | (k, b) :: m, a, v => if a < k then (a, v) :: (k, b) :: m else (k, b) :: Memory.insert m a v

/-- Make an address hold a byte and change nothing else (R52). Writing what an unlisted address
reads as removes the entry, so the canonical form is kept. -/
def Memory.write (m : Memory) (a : Nat) (v : Byte) : Memory :=
  if v = Config.unlistedByte then m.erase a else (m.erase a).insert a v

/-- The canonical form: addresses strictly rising, all below 256 (R35), and no entry equal to what
an unlisted address reads as. -/
abbrev Memory.wf (m : Memory) : Prop :=
  m.Pairwise (fun c d => c.1 < d.1) ∧ ∀ c ∈ m, c.1 < Config.memSize ∧ c.2 ≠ Config.unlistedByte

/-- `MemRead(addr, 1)` (R51): no side effect. -/
def State.memRead (s : State) (addr : Byte) : Byte := s.mem.read addr.toNat

/-- `MemWrite(addr, 1, v)` (R52). -/
def State.memWrite (s : State) (addr v : Byte) : State :=
  { s with mem := s.mem.write addr.toNat v }

/-- `op`, the opcode byte of the tick: the byte at PC (R100, R102). PC does not move before the end of the
tick (R26) and no exception comes after a store of the same tick but the advance fault (R188), so where an
instruction raises with `op` in `s`, this is the byte that was fetched. -/
def State.opcode (s : State) : Byte := s.memRead s.pc

/-! ## Registers (10_state) -/

/-- `x[i]` (R8, R20). -/
def State.reg (s : State) (i : Fin 8) : Byte := s.regs[i]

/-- `x[i] <- v` (R8); no other register changes (R21). -/
def State.setReg (s : State) (i : Fin 8) (v : Byte) : State :=
  { s with regs := s.regs.set i v }

/-- `SP_INDEX`: the stack pointer is R7 (R6, R24). -/
def spIndex : Fin 8 := 7

/-- SP (R24). -/
def State.sp (s : State) : Byte := s.reg spIndex

/-- `x[7] <- trunc8(x[7] - 1)`, modulo 256 (R160). -/
def State.decSp (s : State) : State := s.setReg spIndex (s.sp - 1)

/-- `x[7] <- trunc8(x[7] + 1)`, modulo 256 (R160). -/
def State.incSp (s : State) : State := s.setReg spIndex (s.sp + 1)

/-- `Emit(kind, v)`: append one event to OUT; the port always accepts (R112). -/
def State.emit (s : State) (kind : OutKind) (v : Byte) : State :=
  { s with out := s.out ++ [⟨kind, v⟩] }

/-! ## Exceptions (60_exceptions) -/

/-- The exceptions of R180 with what each reports. -/
inductive Exception where
  | invalidOpcode (op : Byte)
  | divisionByZero (op : Byte)
  | moduloByZero (op : Byte)
  | registerIndexOutOfRange (b : Byte)
  | memoryOutOfRange (addr : StreamAddr)
  | unimplementedInstruction (op : Byte)
deriving DecidableEq, Repr

/-- The cause recorded (R180). -/
def Exception.cause : Exception → Cause
  | .invalidOpcode _ => .invalidOpcode
  | .divisionByZero _ => .divisionByZero
  | .moduloByZero _ => .moduloByZero
  | .registerIndexOutOfRange _ => .registerIndexOutOfRange
  | .memoryOutOfRange _ => .memoryOutOfRange
  | .unimplementedInstruction _ => .unimplementedInstruction

/-- The 9-bit value recorded in `ERR.info` (R180). -/
def Exception.info : Exception → BitVec 9
  | .invalidOpcode op => op.setWidth 9
  | .divisionByZero op => op.setWidth 9
  | .moduloByZero op => op.setWidth 9
  | .registerIndexOutOfRange b => b.setWidth 9
  | .memoryOutOfRange addr => addr
  | .unimplementedInstruction op => op.setWidth 9

/-- `raise E(info)`, the machine's only trap entry (R186): ERR records the cause, the PC and the
info, RUN becomes ERROR_HALTED, everything else keeps its value. There is no return from it (R189):
only reset leaves ERROR_HALTED. -/
def takeException (e : Exception) (s : State) : State :=
  { s with err := ⟨e.cause, s.pc, e.info⟩, run := .errorHalted }

/-! ## The end of a tick (40_tick_and_dispatch) -/

/-- The instruction-stream address PC+k, computed in 9 bits (R53). -/
def streamAddr (pc : Byte) (k : Nat) : StreamAddr := pc.setWidth 9 + BitVec.ofNat 9 k

/-- The fall-through advance past an instruction with `n` operand bytes: `PC <- PC + n + 1` (R109),
or MemoryOutOfRange if that exceeds 255 (R110). -/
def advance (n : Nat) (s : State) : State :=
  if (streamAddr s.pc (n + 1)).toNat < Config.memSize then
    { s with pc := (streamAddr s.pc (n + 1)).setWidth 8 }
  else takeException (.memoryOutOfRange (streamAddr s.pc (n + 1))) s

/-- What `Execute` gives back (R100): an exception before any effect, or the state with the
instruction's effects committed and how the tick ends. -/
inductive Effect where
  | raised (e : Exception)
  | fallThrough (s : State)
  | taken (s : State) (target : Byte)
  | halt (s : State)

/-- The state after the tick of an instruction with `n` operand bytes that started in `s`: the
`case outcome of` of R100. -/
def Effect.finish (n : Nat) (s : State) : Effect → State
  | .raised e => takeException e s
  | .fallThrough t => advance n t
  | .taken t target => { t with pc := target }
  | .halt t => { t with run := .halted }

/-- The end of a tick as the host's outcome: always a next state. -/
def complete (n : Nat) (s : State) (f : Effect) : Host.Outcome State Fault Refusal :=
  .next (f.finish n s)

end Sys2Proof.Machine
end

