-- ==== Sys2Proof/Machine/Operands.lean ====
section
/-! DEFINITION. The operand forms (30_encoding R73, R74): a register-index byte with its check (R106), and
the register-indirect address (R121, R122). The third form, LDI's immediate, is the byte itself. -/

namespace Sys2Proof.Machine

/-- `reg(b)` (R106): the index, or RegisterIndexOutOfRange(b) for 8..255; never masked (R22). -/
def regIndex (b : Byte) : Except Exception (Fin 8) :=
  if h : b.toNat < 8 then .ok ⟨b.toNat, h⟩ else .error (.registerIndexOutOfRange b)

/-- An instruction with one register operand: check it, then go on. -/
def withReg (a : Byte) (k : Fin 8 → Effect) : Effect :=
  match regIndex a with
  | .ok r => k r
  | .error e => .raised e

/-- An instruction with two register operands: check A, then B, then go on (R106). -/
def withRegs (a b : Byte) (k : Fin 8 → Fin 8 → Effect) : Effect :=
  withReg a fun ra => withReg b fun rb => k ra rb

/-- The address in a register: the effective address of LD and ST (R121, R122), and the target of a
jump or call (R150). -/
def State.indirect (s : State) (r : Fin 8) : Byte := s.reg r

end Sys2Proof.Machine
end

