-- ==== Sys2Proof/Machine/Alu.lean ====
section
/-! DEFINITION. The ALU's result operations (40 R107, 42, 43 R140 to R146) and the dispatcher's two
classes of instruction that use them (R105). -/

namespace Sys2Proof.Machine

/-- `alu_op` of R107, but for CMP, whose operation is `aluCompare`. -/
inductive AluOp where
  | add | sub | mul | div | mod | inc | dec | and | or | xor | not | shl | shr
deriving DecidableEq, Repr

/-- `alu_err` of R107, told apart by the operation (R182). -/
inductive AluError where
  | divideByZero
  | moduloByZero
deriving DecidableEq, Repr

/-- SHL: the whole byte is the amount; 8 or more gives 0 (R145). -/
def shiftLeft (a b : Byte) : Byte := if b.toNat ≥ 8 then 0 else a <<< b.toNat

/-- SHR, logical: zeros enter at bit 7; 8 or more gives 0 (R146). -/
def shiftRight (a b : Byte) : Byte := if b.toNat ≥ 8 then 0 else a >>> b.toNat

/-- The ALU's `apply`: the 8-bit result, already modulo 256 (R130), or the error of DIV and MOD by 0
(R107). INC, DEC and NOT ignore `b`. -/
def aluApply (op : AluOp) (a b : Byte) : Except AluError Byte :=
  match op with
  | .add => .ok (a + b)
  | .sub => .ok (a - b)
  | .mul => .ok (a * b)
  | .div => if b = 0 then .error .divideByZero else .ok (a / b)
  | .mod => if b = 0 then .error .moduloByZero else .ok (a % b)
  | .inc => .ok (a + 1)
  | .dec => .ok (a - 1)
  | .and => .ok (a &&& b)
  | .or => .ok (a ||| b)
  | .xor => .ok (a ^^^ b)
  | .not => .ok (~~~a)
  | .shl => .ok (shiftLeft a b)
  | .shr => .ok (shiftRight a b)

/-- The exception of an ALU error; it reports the opcode byte `op` of the tick (R180, R182). -/
def AluError.exception (op : Byte) : AluError → Exception
  | .divideByZero => .divisionByZero op
  | .moduloByZero => .moduloByZero op

/-- Write an ALU result to a register and fall through, or raise (R105, R182). -/
def writeResult (s : State) (rd : Fin 8) (y : Except AluError Byte) : Effect :=
  match y with
  | .ok v => .fallThrough (s.setReg rd v)
  | .error e => .raised (e.exception s.opcode)

/-- Class "ALU, two sources" of R105: both values are read before `x[ra]` is written. -/
def aluTwoSource (op : AluOp) (a b : Byte) (s : State) : Effect :=
  withRegs a b fun ra rb => writeResult s ra (aluApply op (s.reg ra) (s.reg rb))

/-- Class "ALU, one source" of R105; the ALU ignores its second input. -/
def aluOneSource (op : AluOp) (a : Byte) (s : State) : Effect :=
  withReg a fun r => writeResult s r (aluApply op (s.reg r) 0)

end Sys2Proof.Machine
end

