-- ==== Sys2Proof/Machine/Arithmetic.lean ====
section
/-! DEFINITION. ADD, SUB, MUL, DIV, MOD, INC, DEC (42_alu_arithmetic). FL is never touched (R130). -/

namespace Sys2Proof.Machine

/-- ADD ra, rb (R131). -/
def execAdd (a b : Byte) (s : State) : Host.Outcome State Fault Refusal :=
  complete 2 s (aluTwoSource .add a b s)

/-- SUB ra, rb: first minus second (R132). -/
def execSub (a b : Byte) (s : State) : Host.Outcome State Fault Refusal :=
  complete 2 s (aluTwoSource .sub a b s)

/-- MUL ra, rb: the low 8 bits of the product (R133). -/
def execMul (a b : Byte) (s : State) : Host.Outcome State Fault Refusal :=
  complete 2 s (aluTwoSource .mul a b s)

/-- DIV ra, rb: the floor quotient; DivisionByZero when `x[rb]` is 0 (R134). -/
def execDiv (a b : Byte) (s : State) : Host.Outcome State Fault Refusal :=
  complete 2 s (aluTwoSource .div a b s)

/-- MOD ra, rb: the remainder; ModuloByZero when `x[rb]` is 0 (R135). -/
def execMod (a b : Byte) (s : State) : Host.Outcome State Fault Refusal :=
  complete 2 s (aluTwoSource .mod a b s)

/-- INC r: the incremented value is stored (R136). -/
def execInc (a : Byte) (s : State) : Host.Outcome State Fault Refusal :=
  complete 1 s (aluOneSource .inc a s)

/-- DEC r (R137). -/
def execDec (a : Byte) (s : State) : Host.Outcome State Fault Refusal :=
  complete 1 s (aluOneSource .dec a s)

end Sys2Proof.Machine
end

