-- ==== Sys2Proof/Machine/Flags.lean ====
section
/-! DEFINITION. FL (10_state R29, R30): the bits, the ALU's compare (43 R147), and the write of FL. -/

namespace Sys2Proof.Machine

/-- E, bit 0 of FL (R29). -/
def State.flagE (s : State) : Bool := s.fl.getLsbD 0

/-- G, bit 1 of FL (R29). -/
def State.flagG (s : State) : Bool := s.fl.getLsbD 1

/-- L, bit 2 of FL (R29). -/
def State.flagL (s : State) : Bool := s.fl.getLsbD 2

/-- The ALU's `compare`: the 3 bits L, G, E (`alu_fl` of R107), by the unsigned values (R147). -/
def aluCompare (a b : Byte) : BitVec 3 :=
  if a.toNat = b.toNat then 0b001
  else if a.toNat > b.toNat then 0b010
  else 0b100

/-- Write the ALU's flag bits to FL: the whole register is replaced, bits 7:3 by 0 (R30, R147). -/
def State.writeFlags (s : State) (bits : BitVec 3) : State := { s with fl := bits.setWidth 8 }

end Sys2Proof.Machine
end

