-- ==== Sys2Proof/Machine/Jumps.lean ====
section
/-! DEFINITION. JMP, JEQ, JNE, JGT, JLT (44_jumps). The index check is made whether or not the jump is
taken (R106, R150). -/

namespace Sys2Proof.Machine

/-- A jump to the address in a register when a condition holds, else a fall through (R150). -/
def jumpWhen (cond : Bool) (a : Byte) (s : State) : Effect :=
  withReg a fun r => if cond then .taken s (s.indirect r) else .fallThrough s

/-- JMP r (R151). -/
def execJmp (a : Byte) (s : State) : Host.Outcome State Fault Refusal :=
  complete 1 s (jumpWhen true a s)

/-- JEQ r: taken when E is 1 (R152). -/
def execJeq (a : Byte) (s : State) : Host.Outcome State Fault Refusal :=
  complete 1 s (jumpWhen s.flagE a s)

/-- JNE r: taken when E is 0 (R153). -/
def execJne (a : Byte) (s : State) : Host.Outcome State Fault Refusal :=
  complete 1 s (jumpWhen (!s.flagE) a s)

/-- JGT r: taken when G is 1 (R154). -/
def execJgt (a : Byte) (s : State) : Host.Outcome State Fault Refusal :=
  complete 1 s (jumpWhen s.flagG a s)

/-- JLT r: taken when L is 1 (R155). -/
def execJlt (a : Byte) (s : State) : Host.Outcome State Fault Refusal :=
  complete 1 s (jumpWhen s.flagL a s)

end Sys2Proof.Machine
end

