-- ==== Sys2Proof/Machine/LoadStore.lean ====
section
/-! DEFINITION. LDI, LD, ST, PRN, PRA (41_load_store_output). -/

namespace Sys2Proof.Machine

/-- LDI r, imm (R120). -/
def execLdi (a b : Byte) (s : State) : Host.Outcome State Fault Refusal :=
  complete 2 s <| withReg a fun r => .fallThrough (s.setReg r b)

/-- LD ra, rb (R121): the address is read before `x[ra]` is written. -/
def execLd (a b : Byte) (s : State) : Host.Outcome State Fault Refusal :=
  complete 2 s <| withRegs a b fun ra rb => .fallThrough (s.setReg ra (s.memRead (s.indirect rb)))

/-- ST ra, rb (R122): the address register comes first. -/
def execSt (a b : Byte) (s : State) : Host.Outcome State Fault Refusal :=
  complete 2 s <| withRegs a b fun ra rb => .fallThrough (s.memWrite (s.indirect ra) (s.reg rb))

/-- PRN r (R123). -/
def execPrn (a : Byte) (s : State) : Host.Outcome State Fault Refusal :=
  complete 1 s <| withReg a fun r => .fallThrough (s.emit .num (s.reg r))

/-- PRA r (R124). -/
def execPra (a : Byte) (s : State) : Host.Outcome State Fault Refusal :=
  complete 1 s <| withReg a fun r => .fallThrough (s.emit .chr (s.reg r))

end Sys2Proof.Machine
end

