-- ==== Sys2Proof/Machine/Logic.lean ====
section
/-! DEFINITION. AND, OR, XOR, NOT, SHL, SHR, CMP (43_alu_logic_shift_compare). Only CMP writes FL. -/

namespace Sys2Proof.Machine

/-- AND ra, rb (R141). -/
def execAnd (a b : Byte) (s : State) : Host.Outcome State Fault Refusal :=
  complete 2 s (aluTwoSource .and a b s)

/-- OR ra, rb (R142). -/
def execOr (a b : Byte) (s : State) : Host.Outcome State Fault Refusal :=
  complete 2 s (aluTwoSource .or a b s)

/-- XOR ra, rb (R143). -/
def execXor (a b : Byte) (s : State) : Host.Outcome State Fault Refusal :=
  complete 2 s (aluTwoSource .xor a b s)

/-- NOT r: the complement of 8 bits (R144). -/
def execNot (a : Byte) (s : State) : Host.Outcome State Fault Refusal :=
  complete 1 s (aluOneSource .not a s)

/-- SHL ra, rb (R145). -/
def execShl (a b : Byte) (s : State) : Host.Outcome State Fault Refusal :=
  complete 2 s (aluTwoSource .shl a b s)

/-- SHR ra, rb (R146). -/
def execShr (a b : Byte) (s : State) : Host.Outcome State Fault Refusal :=
  complete 2 s (aluTwoSource .shr a b s)

/-- CMP ra, rb: writes FL and no register (R147). -/
def execCmp (a b : Byte) (s : State) : Host.Outcome State Fault Refusal :=
  complete 2 s <| withRegs a b fun ra rb =>
    .fallThrough (s.writeFlags (aluCompare (s.reg ra) (s.reg rb)))

end Sys2Proof.Machine
end

