-- ==== Sys2Proof/Machine/Stack.lean ====
section
/-! DEFINITION. PUSH, POP, CALL, RET (45_stack_and_subroutine). A full descending byte stack at R7 in the
one Memory, with no overflow or underflow check (R160). -/

namespace Sys2Proof.Machine

/-- The address a push writes: SP - 1 modulo 256 (R160). -/
def State.pushAddr (s : State) : Byte := s.sp - 1

/-- PUSH r (R161): `x[r]` is read after the decrement, so PUSH R7 stores the decremented SP. -/
def execPush (a : Byte) (s : State) : Host.Outcome State Fault Refusal :=
  complete 1 s <| withReg a fun r => .fallThrough (s.decSp.memWrite s.pushAddr (s.decSp.reg r))

/-- POP r (R162): SP is incremented after the write of `x[r]`, so POP R7 ends one above the popped
byte. -/
def execPop (a : Byte) (s : State) : Host.Outcome State Fault Refusal :=
  complete 1 s <| withReg a fun r => .fallThrough (s.setReg r (s.memRead s.sp)).incSp

/-- The return address of a CALL, in 9 bits (R163). -/
def returnAddr (s : State) : StreamAddr := streamAddr s.pc 2

/-- CALL r (R163): MemoryOutOfRange before any effect when the return address exceeds 255; `x[r]` is
read after the decrement. -/
def execCall (a : Byte) (s : State) : Host.Outcome State Fault Refusal :=
  complete 1 s <| withReg a fun r =>
    if (returnAddr s).toNat < Config.memSize then
      .taken (s.decSp.memWrite s.pushAddr ((returnAddr s).setWidth 8)) (s.decSp.indirect r)
    else .raised (.memoryOutOfRange (returnAddr s))

/-- RET (R164). -/
def execRet (s : State) : Host.Outcome State Fault Refusal :=
  complete 0 s (.taken s.incSp (s.memRead s.sp))

end Sys2Proof.Machine
end

