-- ==== Sys2Proof/Machine/System.lean ====
section
/-! DEFINITION. NOP, HLT, INT, IRET (46_system). -/

namespace Sys2Proof.Machine

/-- NOP (R170). -/
def execNop (s : State) : Host.Outcome State Fault Refusal := complete 0 s (.fallThrough s)

/-- HLT: RUN becomes HALTED and PC stays (R171). -/
def execHlt (s : State) : Host.Outcome State Fault Refusal := complete 0 s (.halt s)

/-- INT r: always takes UnimplementedInstruction(op); the operand byte is not checked or used (R172). -/
def execInt (_a : Byte) (s : State) : Host.Outcome State Fault Refusal :=
  complete 1 s (.raised (.unimplementedInstruction s.opcode))

/-- IRET: always takes UnimplementedInstruction(op) (R173). -/
def execIret (s : State) : Host.Outcome State Fault Refusal :=
  complete 0 s (.raised (.unimplementedInstruction s.opcode))

end Sys2Proof.Machine
end

