-- ==== Sys2Proof/Syntax.lean ====
section
/-! DEFINITION. The instructions of the LS-8 core: one constructor of `Instr` per row of
spec/opcode_table.json (30_encoding R75). Operands are raw operand bytes (R73): a register-index byte
of 8..255 is not masked and raises when the instruction executes (R74), so the syntax keeps it. -/

namespace Sys2Proof

/-- The 32 mnemonics, in the order of the opcode map of R76. -/
inductive Mnemonic where
  | nop | hlt | ret | iret
  | pra | prn | call | int | pop | push | jmp | jeq | jne | jlt | jgt | not | inc | dec
  | ld | ldi | st | cmp | add | sub | mul | div | mod | or | xor | and | shl | shr
deriving DecidableEq, Repr

/-- The four formats of R72. -/
inductive Format where
  /-- one byte: the opcode -/
  | z
  /-- opcode, register index -/
  | r
  /-- opcode, register index A, register index B -/
  | rr
  /-- opcode, register index, immediate -/
  | ri
deriving DecidableEq, Repr

/-- An instruction with its operand bytes, operand A first (R72). `r`, `ra`, `rb` are
register-index bytes, `imm` an immediate byte. -/
inductive Instr where
  | nop
  | hlt
  | ret
  | iret
  | pra (r : Byte)
  | prn (r : Byte)
  | call (r : Byte)
  | int (r : Byte)
  | pop (r : Byte)
  | push (r : Byte)
  | jmp (r : Byte)
  | jeq (r : Byte)
  | jne (r : Byte)
  | jlt (r : Byte)
  | jgt (r : Byte)
  | not (r : Byte)
  | inc (r : Byte)
  | dec (r : Byte)
  | ld (ra rb : Byte)
  | ldi (r imm : Byte)
  | st (ra rb : Byte)
  | cmp (ra rb : Byte)
  | add (ra rb : Byte)
  | sub (ra rb : Byte)
  | mul (ra rb : Byte)
  | div (ra rb : Byte)
  | mod (ra rb : Byte)
  | or (ra rb : Byte)
  | xor (ra rb : Byte)
  | and (ra rb : Byte)
  | shl (ra rb : Byte)
  | shr (ra rb : Byte)
deriving DecidableEq, Repr

end Sys2Proof
end

