-- ==== Sys2Proof/WellFormed.lean ====
section
/-! DEFINITION. Which instructions are well formed: every register-index operand byte is 0..7
(30_encoding R74, 70_reset_and_hazards R205). An ill-formed instruction decodes and executes all the
same: it raises RegisterIndexOutOfRange (R106). The immediate of LDI may be any byte. -/

namespace Sys2Proof

/-- The operand bytes that the instruction's format (R72) makes register indices, operand A first. -/
def Instr.registerOperands : Instr → List Byte
  | .nop | .hlt | .ret | .iret => []
  | .pra r | .prn r | .call r | .int r | .pop r | .push r => [r]
  | .jmp r | .jeq r | .jne r | .jlt r | .jgt r => [r]
  | .not r | .inc r | .dec r => [r]
  | .ldi r _ => [r]
  | .ld ra rb | .st ra rb | .cmp ra rb => [ra, rb]
  | .add ra rb | .sub ra rb | .mul ra rb | .div ra rb | .mod ra rb => [ra, rb]
  | .or ra rb | .xor ra rb | .and ra rb | .shl ra rb | .shr ra rb => [ra, rb]

/-- A legal register-index byte (R74). -/
def isRegisterIndex (b : Byte) : Bool := decide (b.toNat ≤ 7)

/-- Every register-index operand is legal (R74). -/
def Instr.wellFormed (i : Instr) : Bool := i.registerOperands.all isRegisterIndex

end Sys2Proof
end

