-- ==== Sys2Proof/Decode.lean ====
section
/-! DEFINITION. Decoding and encoding (30_encoding). Both take the opcode map as an argument, because the
spec leaves `OPCODE_MAP` open (00_scope R6, decision D1); `decode` and `encode` are those of the
default map of R76, under which `step` runs; `Machine.tick` takes any map. -/

namespace Sys2Proof

/-- The format of each mnemonic (R72). -/
def Mnemonic.format : Mnemonic → Format
  | .nop | .hlt | .ret | .iret => .z
  | .pra | .prn | .call | .int | .pop | .push => .r
  | .jmp | .jeq | .jne | .jlt | .jgt | .not | .inc | .dec => .r
  | .ldi => .ri
  | .ld | .st | .cmp | .add | .sub | .mul | .div | .mod => .rr
  | .or | .xor | .and | .shl | .shr => .rr

/-- Operand bytes of a format (R72). -/
def Format.operandCount : Format → Nat
  | .z => 0
  | .r => 1
  | .rr => 2
  | .ri => 2

/-- Every mnemonic, in the order of R76. -/
def Mnemonic.all : List Mnemonic :=
  [.nop, .hlt, .ret, .iret, .pra, .prn, .call, .int, .pop, .push, .jmp, .jeq, .jne, .jlt, .jgt,
   .not, .inc, .dec] ++
  [.ld, .ldi, .st, .cmp, .add, .sub, .mul, .div, .mod, .or, .xor, .and, .shl, .shr]

/-- An opcode map: the opcode byte of each mnemonic (R6, `OPCODE_MAP`). -/
abbrev OpcodeMap := Mnemonic → Byte

/-- The default `OPCODE_MAP` of R76. Log entry 3. -/
def opcodeMap : OpcodeMap
  | .nop => 0x00
  | .hlt => 0x01
  | .ret => 0x09
  | .iret => 0x0B
  | .pra => 0x42
  | .prn => 0x43
  | .call => 0x48
  | .int => 0x4A
  | .pop => 0x4C
  | .push => 0x4D
  | .jmp => 0x50
  | .jeq => 0x51
  | .jne => 0x52
  | .jlt => 0x53
  | .jgt => 0x54
  | .not => 0x70
  | .inc => 0x78
  | .dec => 0x79
  | .ld => 0x98
  | .ldi => 0x99
  | .st => 0x9A
  | .cmp => 0xA0
  | .add => 0xA8
  | .sub => 0xA9
  | .mul => 0xAA
  | .div => 0xAB
  | .mod => 0xAC
  | .or => 0xB1
  | .xor => 0xB2
  | .and => 0xB3
  | .shl => 0xB4
  | .shr => 0xB5

/-- The operand count field `op[7:6]` (R71). -/
def operandCount (op : Byte) : Nat := (op.extractLsb 7 6).toNat

/-- What R77 asks of any opcode map: (a) one byte per mnemonic, none shared; (b) and (c) bits 7:6 of
each byte are the operand count of the mnemonic's format. -/
structure OpcodeMap.Valid (map : OpcodeMap) : Prop where
  injective : ∀ m m', map m = map m' → m = m'
  count : ∀ m : Mnemonic, operandCount (map m) = m.format.operandCount

/-- The lookup from opcode byte to mnemonic; none for an unassigned byte (R75, R78). -/
def OpcodeMap.lookup (map : OpcodeMap) (op : Byte) : Option Mnemonic :=
  Mnemonic.all.find? fun m => map m == op

/-- The instruction of a mnemonic with operand bytes `a` and `b`; a format without an operand
ignores its byte. -/
def Mnemonic.build (m : Mnemonic) (a b : Byte) : Instr :=
  match m with
  | .nop => .nop
  | .hlt => .hlt
  | .ret => .ret
  | .iret => .iret
  | .pra => .pra a
  | .prn => .prn a
  | .call => .call a
  | .int => .int a
  | .pop => .pop a
  | .push => .push a
  | .jmp => .jmp a
  | .jeq => .jeq a
  | .jne => .jne a
  | .jlt => .jlt a
  | .jgt => .jgt a
  | .not => .not a
  | .inc => .inc a
  | .dec => .dec a
  | .ld => .ld a b
  | .ldi => .ldi a b
  | .st => .st a b
  | .cmp => .cmp a b
  | .add => .add a b
  | .sub => .sub a b
  | .mul => .mul a b
  | .div => .div a b
  | .mod => .mod a b
  | .or => .or a b
  | .xor => .xor a b
  | .and => .and a b
  | .shl => .shl a b
  | .shr => .shr a b

/-- Why bytes are no instruction. -/
inductive DecodeError where
  /-- there is no byte to read the opcode from -/
  | noOpcode
  /-- the opcode byte is not assigned (R78) -/
  | unassigned (op : Byte)
  /-- the opcode is assigned and operand byte `k` (1 = A, 2 = B) is not there (R104) -/
  | missingOperand (k : Nat)
deriving DecidableEq, Repr

/-- Decode the instruction at the head of `bytes` under an opcode map, and give the bytes after it.
The opcode is looked up before any operand is taken (R103), and exactly `op[7:6]` operand bytes are
taken, A then B (R104). A count of 3 is rejected (R71). -/
def decodeWith (map : OpcodeMap) (bytes : List Byte) : Except DecodeError (Instr × List Byte) :=
  match bytes with
  | [] => .error .noOpcode
  | op :: rest =>
    match map.lookup op with
    | none => .error (.unassigned op)
    | some m =>
      match operandCount op, rest with
      | 0, rest => .ok (m.build 0 0, rest)
      | 1, a :: rest => .ok (m.build a 0, rest)
      | 2, a :: b :: rest => .ok (m.build a b, rest)
      | 1, [] => .error (.missingOperand 1)
      | 2, [] => .error (.missingOperand 1)
      | 2, [_] => .error (.missingOperand 2)
      | _ + 3, _ => .error (.unassigned op)

/-- The machine's decoder: the default map of R76. -/
def decode (bytes : List Byte) : Except DecodeError (Instr × List Byte) := decodeWith opcodeMap bytes

/-- The mnemonic of an instruction. -/
def Instr.mnemonic : Instr → Mnemonic
  | .nop => .nop
  | .hlt => .hlt
  | .ret => .ret
  | .iret => .iret
  | .pra _ => .pra
  | .prn _ => .prn
  | .call _ => .call
  | .int _ => .int
  | .pop _ => .pop
  | .push _ => .push
  | .jmp _ => .jmp
  | .jeq _ => .jeq
  | .jne _ => .jne
  | .jlt _ => .jlt
  | .jgt _ => .jgt
  | .not _ => .not
  | .inc _ => .inc
  | .dec _ => .dec
  | .ld _ _ => .ld
  | .ldi _ _ => .ldi
  | .st _ _ => .st
  | .cmp _ _ => .cmp
  | .add _ _ => .add
  | .sub _ _ => .sub
  | .mul _ _ => .mul
  | .div _ _ => .div
  | .mod _ _ => .mod
  | .or _ _ => .or
  | .xor _ _ => .xor
  | .and _ _ => .and
  | .shl _ _ => .shl
  | .shr _ _ => .shr

/-- The operand bytes of an instruction, in the order they stand in memory (R72). -/
def Instr.operandBytes : Instr → List Byte
  | .nop | .hlt | .ret | .iret => []
  | .pra r | .prn r | .call r | .int r | .pop r | .push r => [r]
  | .jmp r | .jeq r | .jne r | .jlt r | .jgt r => [r]
  | .not r | .inc r | .dec r => [r]
  | .ldi r imm => [r, imm]
  | .ld ra rb | .st ra rb | .cmp ra rb => [ra, rb]
  | .add ra rb | .sub ra rb | .mul ra rb | .div ra rb | .mod ra rb => [ra, rb]
  | .or ra rb | .xor ra rb | .and ra rb | .shl ra rb | .shr ra rb => [ra, rb]

/-- The bytes of an instruction under an opcode map: the opcode, then the operand bytes (R70). -/
def encodeWith (map : OpcodeMap) (i : Instr) : List Byte := map i.mnemonic :: i.operandBytes

/-- The bytes of an instruction under the default map. -/
def encode (i : Instr) : List Byte := encodeWith opcodeMap i

/-- The three bytes of an instruction whose bits are `w`, numbered as spec/opcode_table.json numbers
them: byte 0 (the opcode) is bits 7..0, byte 1 bits 15..8, byte 2 bits 23..16. Bits from `nbits` up
are 0. -/
def tableWordBytes (nbits w : Nat) : List Byte :=
  let v := w % 2 ^ nbits
  [BitVec.ofNat 8 v, BitVec.ofNat 8 (v / 2 ^ 8), BitVec.ofNat 8 (v / 2 ^ 16)]

/-- The instruction the decoder reads from a word of spec/opcode_table.json (the host's question). -/
def decodeTableWord (nbits w : Nat) : Option Instr :=
  match decode (tableWordBytes nbits w) with
  | .ok (i, _) => some i
  | .error _ => none

end Sys2Proof
end

