-- ==== Sys2Proof/Machine/Fetch.lean ====
section
/-! DEFINITION. Fetching the instruction at PC (40_tick_and_dispatch R102 to R104), and storing one there
for the host. -/

namespace Sys2Proof.Machine

/-- The bytes an instruction at PC can have: those at PC, PC+1, PC+2 that exist (R53, R54). The
decoder takes exactly as many as the opcode asks for (R104). -/
def streamBytes (s : State) : List Byte :=
  (([0, 1, 2].map fun k => s.pc.toNat + k).takeWhile (· < Config.memSize)).map s.mem.read

/-- The exception of bytes that are no instruction: InvalidOpcode(op) (R103), or MemoryOutOfRange of
the address of the first operand byte that does not exist (R104). There is always an opcode byte
(R102), so the first case does not arise. -/
def fetchException (pc : Byte) : DecodeError → Exception
  | .noOpcode => .memoryOutOfRange (streamAddr pc 0)
  | .unassigned op => .invalidOpcode op
  | .missingOperand k => .memoryOutOfRange (streamAddr pc k)

/-- Fetch and decode the instruction at PC under an opcode map (R6, R100). -/
def fetchInstr (map : OpcodeMap) (s : State) : Except Exception Instr :=
  match decodeWith map (streamBytes s) with
  | .ok (i, _) => .ok i
  | .error e => .error (fetchException s.pc e)

/-- Write bytes at ascending addresses from `a`, those that exist. -/
def storeBytes (s : State) (a : Nat) : List Byte → State
  | [] => s
  | b :: bs =>
    if a < Config.memSize then storeBytes { s with mem := s.mem.write a b } (a + 1) bs else s

/-- A machine that is running, with an instruction's bytes at PC. -/
def placeInstr (s : State) (bytes : List Byte) : State :=
  storeBytes { s with run := .running } s.pc.toNat bytes

end Sys2Proof.Machine
end

