-- ==== Sys2Proof/Machine/Tick.lean ====
section
/-! DEFINITION. The tick (40_tick_and_dispatch R100, R101): fetch, decode, execute; and the machine with its
OPEN parameters (00_scope R6) as arguments. -/

namespace Sys2Proof.Machine

/-- One tick under an opcode map (R6, `OPCODE_MAP`). In HALTED and ERROR_HALTED nothing happens (R101). Only
the decoding depends on the map: `exec` is the same under every map. -/
def tick (map : OpcodeMap) (s : State) : Host.Outcome State Fault Refusal :=
  match s.run with
  | .running =>
    match fetchInstr map s with
    | .ok i => exec i s
    | .error e => .next (takeException e s)
  | .halted => .next s
  | .errorHalted => .next s

/-- The machine for any values of the four OPEN parameters of R6: `OPCODE_MAP`, `ENTRY_PC`, `REG_RESET` and
`IMAGE`. `Sys2Proof.core` is that of the defaults (log entries 1, 2, 3). -/
def machineOf (map : OpcodeMap) (entryPc : Byte) (regReset : Vector Byte 8) (image : Memory) : Host.Core where
  State := State
  Fault := Fault
  Refusal := Refusal
  step := tick map
  reset := State.resetWith entryPc regReset image

end Sys2Proof.Machine
end

