-- ==== Sys2Proof/Machine/Step.lean ====
section
/-! DEFINITION. The step: one tick (R11, R100) under the default opcode map (R76, log entry 3); and where the host stores the instruction that the next
step runs. -/

namespace Sys2Proof.Machine

/-- One step of the machine is one tick, under the default `OPCODE_MAP`. -/
def step (s : State) : Host.Outcome State Fault Refusal := tick opcodeMap s

/-- `s`, running, with the instruction of a table word at PC (log entry 5). -/
def State.withFetchWord (s : State) (nbits w : Nat) : State := placeInstr s (tableWordBytes nbits w)

end Sys2Proof.Machine
end

