-- ==== Sys2Proof/Machine/Ports.lean ====
section
/-! DEFINITION. What the trace port and the status port show (40_tick_and_dispatch R114, R115), the codes
of RUN (R32) and ERR.cause (R180), and the reset input (R113). Functions of the state: no port is state. -/

namespace Sys2Proof.Machine

/-- The encoding of RUN that R32 suggests. -/
def RunState.code : RunState → BitVec 2
  | .running => 0
  | .halted => 1
  | .errorHalted => 2

/-- The 3-bit cause code (R33, R180). -/
def Cause.code : Cause → BitVec 3
  | .noError => 0
  | .invalidOpcode => 1
  | .divisionByZero => 2
  | .moduloByZero => 3
  | .registerIndexOutOfRange => 4
  | .memoryOutOfRange => 5
  | .unimplementedInstruction => 6

/-- What the tick in state `s` presents on the trace port: PC and the opcode byte, assigned or not,
when RUN is RUNNING; nothing otherwise (R101, R114). -/
def tracePort (s : State) : Option (Byte × Byte) :=
  match s.run with
  | .running => some (s.pc, s.memRead s.pc)
  | .halted => none
  | .errorHalted => none

/-- What the status port shows in state `s` (R115). -/
def statusPort (s : State) : RunState × ErrorRecord := (s.run, s.err)

/-- The reset input (R113): the state after reset applied in any state `s`, with the values it takes for
`ENTRY_PC` and `REG_RESET`; Memory stays (R200, R201). It is no step (log entry 6). -/
def resetPort (entryPc : Byte) (regReset : Vector Byte 8) (s : State) : State :=
  State.resetWith entryPc regReset s.mem

end Sys2Proof.Machine
end

