-- ==== Sys2Proof/Safety.lean ====
section
/-! DEFINITION. How a run ends (70_reset_and_hazards R202), and the invariant of the core. -/

namespace Sys2Proof.Machine

/-- The run has ended (R202). -/
def State.ended (s : State) : Prop := s.run ≠ .running

/-- The run ended successfully (R202). -/
def State.endedWell (s : State) : Prop := s.run = .halted

/-- The run ended in a fault (R189, R202): never a successful end. -/
def State.endedInFault (s : State) : Prop := s.run = .errorHalted

/-- What holds of every state a run under an opcode map reaches, whatever the reset parameters and the
image. -/
structure State.Inv (map : OpcodeMap) (s : State) : Prop where
  /-- memory is in its canonical form, all addresses below 256 (R35) -/
  mem_wf : s.mem.wf
  /-- FL is 0, 1, 2 or 4 (R29, R31) -/
  fl_legal : s.fl = 0 ∨ s.fl = 1 ∨ s.fl = 2 ∨ s.fl = 4
  /-- ERR is clear unless RUN is ERROR_HALTED (R33, R180) -/
  err_clear : s.run ≠ .errorHalted → s.err = ErrorRecord.clear
  /-- in ERROR_HALTED, ERR has a cause, and PC is still at the faulting instruction (R33, R186) -/
  err_at_pc : s.run = .errorHalted → s.err.cause ≠ .noError ∧ s.err.pc = s.pc
  /-- a reported register index is 8..255 (R180, R183) -/
  bad_index : s.err.cause = .registerIndexOutOfRange → 8 ≤ s.err.info.toNat ∧ s.err.info.toNat ≤ 255
  /-- a reported address is 256 (R33, R180) -/
  bad_address : s.err.cause = .memoryOutOfRange → s.err.info.toNat = 256
  /-- in HALTED, PC is at a HLT byte (R171, R202) -/
  at_hlt : s.run = .halted → s.memRead s.pc = map .hlt

end Sys2Proof.Machine
end

