-- ==== Sys2Proof/Certificates/Slice0/Obligations.lean ====
section
/-! DEFINITION. The statements for the provers, and the vocabulary they are written in. The opcode bytes
that appear are those of the spec's default `OPCODE_MAP` (R76, log entry 3), and rules that the spec marks
as its own decisions (D2 to D22) are taken as they stand (log entry 4). -/

namespace Sys2Proof.Claims

open Sys2Proof.Machine

/-! ## Vocabulary -/

/-- What `exec` and `step` answer. -/
abbrev Answer := Host.Outcome State Fault Refusal

/-- The answer is the exception entry of R186: ERR gets the cause, the PC and the info, RUN becomes
ERROR_HALTED, every other part of the state is that of `s`. -/
def Takes (o : Answer) (s : State) (cause : Cause) (info : Nat) : Prop :=
  o = .next { s with run := .errorHalted, err := ⟨cause, s.pc, BitVec.ofNat 9 info⟩ }

/-- The opcode byte of the tick, `op` of R100. -/
def opByte (s : State) : Byte := s.memRead s.pc

/-- Every general register outside `ws` reads as before. -/
def RegsKept (ws : List (Fin 8)) (s t : State) : Prop := ∀ i, i ∉ ws → t.reg i = s.reg i

/-- Every byte of memory reads as before. -/
def MemKept (s t : State) : Prop := ∀ x : Byte, t.memRead x = s.memRead x

/-- Every byte of memory outside address `a` reads as before. -/
def MemKeptBut (a : Byte) (s t : State) : Prop := ∀ x : Byte, x ≠ a → t.memRead x = s.memRead x

/-- The tick of an instruction of `len` bytes ended by falling through: PC advances by `len`, RUN and
ERR stay (R109); or its last byte was at 255, and MemoryOutOfRange(256) is recorded with PC unchanged
(R110). -/
def FellThrough (len : Nat) (s t : State) : Prop :=
  (s.pc.toNat + len ≤ 255 → t.pc.toNat = s.pc.toNat + len ∧ t.run = s.run ∧ t.err = s.err) ∧
  (s.pc.toNat + len = 256 →
    t.pc = s.pc ∧ t.run = .errorHalted ∧ t.err = ⟨.memoryOutOfRange, s.pc, 256⟩)

/-- The tick ended by a taken transfer: PC is the target, the length is not added (R111). -/
def Jumped (target : Byte) (s t : State) : Prop := t.pc = target ∧ t.run = s.run ∧ t.err = s.err

/-- The answer is a next state in which register `r` holds `v`, every other register, FL, every byte
of memory and OUT are as before, and the tick fell through `len` bytes. -/
def WritesReg (o : Answer) (len : Nat) (s : State) (r : Fin 8) (v : Nat) : Prop :=
  ∃ t, o = .next t ∧ (t.reg r).toNat = v ∧ RegsKept [r] s t ∧ t.fl = s.fl ∧ MemKept s t ∧
    t.out = s.out ∧ FellThrough len s t

/-- `mk a` is an R-format instruction with opcode byte `op` that checks its register operand (R106)
and, when it is legal, behaves as `body` says of the register's index. -/
def OneRegisterRule (op : Byte) (mk : Byte → Instr) (body : State → Fin 8 → Answer → Prop) : Prop :=
  ∀ (a : Byte) (s : State), encode (mk a) = [op, a] ∧
    (∀ ha : a.toNat < 8, body s ⟨a.toNat, ha⟩ (exec (mk a) s)) ∧
    (8 ≤ a.toNat → Takes (exec (mk a) s) s .registerIndexOutOfRange a.toNat)

/-- `mk a b` is an RR-format instruction with opcode byte `op` that checks operand A, then operand B
(R106) and, when both are legal, behaves as `body` says of the two indices. -/
def TwoRegisterRule (op : Byte) (mk : Byte → Byte → Instr)
    (body : State → Fin 8 → Fin 8 → Answer → Prop) : Prop :=
  ∀ (a b : Byte) (s : State), encode (mk a b) = [op, a, b] ∧
    (∀ (ha : a.toNat < 8) (hb : b.toNat < 8),
      body s ⟨a.toNat, ha⟩ ⟨b.toNat, hb⟩ (exec (mk a b) s)) ∧
    (8 ≤ a.toNat → Takes (exec (mk a b) s) s .registerIndexOutOfRange a.toNat) ∧
    (a.toNat < 8 → 8 ≤ b.toNat → Takes (exec (mk a b) s) s .registerIndexOutOfRange b.toNat)

/-- An RR instruction that writes `value x[ra] x[rb]` to `x[ra]` and falls through. -/
def TwoSourceRule (op : Byte) (mk : Byte → Byte → Instr) (value : Nat → Nat → Nat) : Prop :=
  TwoRegisterRule op mk fun s ra rb o =>
    WritesReg o 3 s ra (value (s.reg ra).toNat (s.reg rb).toNat)

/-- An RR instruction that writes `value x[ra] x[rb]` to `x[ra]` unless `x[rb]` is 0, when it takes
the exception `cause` with the opcode byte of the tick and writes nothing. -/
def DivideRule (op : Byte) (mk : Byte → Byte → Instr) (cause : Cause) (value : Nat → Nat → Nat) :
    Prop :=
  TwoRegisterRule op mk fun s ra rb o =>
    (s.reg rb ≠ 0 → WritesReg o 3 s ra (value (s.reg ra).toNat (s.reg rb).toNat)) ∧
    (s.reg rb = 0 → Takes o s cause (opByte s).toNat)

/-- An R instruction that writes `value x[r]` to `x[r]` and falls through. -/
def OneSourceRule (op : Byte) (mk : Byte → Instr) (value : Nat → Nat) : Prop :=
  OneRegisterRule op mk fun s r o => WritesReg o 2 s r (value (s.reg r).toNat)

/-- An RR instruction that writes to `x[ra]` the byte whose every bit `k` is `bit` of the two source
bits `k`, and falls through. -/
def BitwiseRule (op : Byte) (mk : Byte → Byte → Instr) (bit : Bool → Bool → Bool) : Prop :=
  TwoRegisterRule op mk fun s ra rb o => ∃ v : Byte,
    (∀ k, k < 8 → v.getLsbD k = bit ((s.reg ra).getLsbD k) ((s.reg rb).getLsbD k)) ∧
    WritesReg o 3 s ra v.toNat

/-- An R instruction that appends one event to OUT and changes nothing else but PC. -/
def EmitRule (op : Byte) (mk : Byte → Instr) (kind : OutKind) : Prop :=
  OneRegisterRule op mk fun s r o => ∃ t, o = .next t ∧
    t.out = s.out ++ [⟨kind, s.reg r⟩] ∧ RegsKept [] s t ∧ t.fl = s.fl ∧ MemKept s t ∧
    FellThrough 2 s t

/-- An R instruction that goes to `x[r]` when `cond` holds of FL and falls through otherwise; the
operand is checked either way. -/
def JumpRule (op : Byte) (mk : Byte → Instr) (cond : Byte → Bool) : Prop :=
  OneRegisterRule op mk fun s r o => ∃ t, o = .next t ∧
    RegsKept [] s t ∧ t.fl = s.fl ∧ MemKept s t ∧ t.out = s.out ∧
    (cond s.fl = true → Jumped (s.reg r) s t) ∧ (cond s.fl = false → FellThrough 2 s t)

/-- The registers an instruction may write (R23): its destination, and R7 for the stack
instructions. -/
def writtenRegs : Instr → List Byte
  | .ldi a _ | .ld a _ => [a]
  | .add a _ | .sub a _ | .mul a _ | .div a _ | .mod a _ => [a]
  | .and a _ | .or a _ | .xor a _ | .shl a _ | .shr a _ => [a]
  | .inc a | .dec a | .not a => [a]
  | .pop a => [a, 7]
  | .push _ | .call _ | .ret => [7]
  | .cmp _ _ | .st _ _ | .prn _ | .pra _ => []
  | .jmp _ | .jeq _ | .jne _ | .jgt _ | .jlt _ => []
  | .nop | .hlt | .int _ | .iret => []

/-- The address an instruction stores to (R57 step 4): ST at `x[ra]`, PUSH and CALL at SP - 1; no
other instruction stores. -/
def storedAddr (i : Instr) (s : State) : Option Byte :=
  match i with
  | .st a _ => if ha : a.toNat < 8 then some (s.indirect ⟨a.toNat, ha⟩) else none
  | .push _ | .call _ => some s.pushAddr
  | _ => none

/-- The events an instruction emits (R112): PRN and PRA one each when the operand is legal. -/
def emittedEvents (i : Instr) (s : State) : List OutEvent :=
  match i with
  | .prn a => if ha : a.toNat < 8 then [⟨.num, s.reg ⟨a.toNat, ha⟩⟩] else []
  | .pra a => if ha : a.toNat < 8 then [⟨.chr, s.reg ⟨a.toNat, ha⟩⟩] else []
  | _ => []

/-- A conditional jump. -/
def isConditionalJump : Instr → Bool
  | .jeq _ | .jne _ | .jgt _ | .jlt _ => true
  | _ => false

/-- The register-index operands checked when an instruction executes (R106): those its format makes
register indices, but for INT, whose operand is not checked (R172). -/
def checkedOperands (i : Instr) : List Byte :=
  match i with
  | .int _ => []
  | i => i.registerOperands

/-! ### The table of R187 -/

/-- The byte at PC+1. -/
def byteA (s : State) : Byte := s.memRead (s.pc + 1)
/-- The byte at PC+2. -/
def byteB (s : State) : Byte := s.memRead (s.pc + 2)
/-- The register an operand byte names, read as 0 where it names none (only checks after the index
checks use it). -/
def operandValue (s : State) (b : Byte) : Byte :=
  if h : b.toNat < 8 then s.reg ⟨b.toNat, h⟩ else 0
/-- The format has a register index as operand A. -/
def hasIndexA (m : Mnemonic) : Bool := m.format != .z
/-- The format has a register index as operand B. -/
def hasIndexB (m : Mnemonic) : Bool := m.format == .rr
/-- The instruction transfers control or halts under FL, so the tick does not fall through (R105,
R111). -/
def leavesSequence (m : Mnemonic) (fl : Byte) : Bool :=
  match m with
  | .hlt | .jmp | .call | .ret => true
  | .jeq => fl.getLsbD 0
  | .jne => !fl.getLsbD 0
  | .jgt => fl.getLsbD 1
  | .jlt => fl.getLsbD 2
  | _ => false

/-- One row of the table of R187: whether the check fires, and the exception it raises. -/
abbrev FaultRow := Bool × Cause × Nat

/-- Rows 2 to 9 of R187 for an assigned opcode byte of mnemonic `m`, in order. -/
def assignedRows (s : State) (m : Mnemonic) : List FaultRow :=
  let pc := s.pc.toNat
  let n := operandCount (opByte s)
  [ (decide (1 ≤ n ∧ 255 < pc + 1), .memoryOutOfRange, 256),
    (decide (n = 2 ∧ 255 < pc + 2), .memoryOutOfRange, 256),
    (m == .int || m == .iret, .unimplementedInstruction, (opByte s).toNat),
    (hasIndexA m && decide (7 < (byteA s).toNat), .registerIndexOutOfRange, (byteA s).toNat),
    (hasIndexB m && decide (7 < (byteB s).toNat), .registerIndexOutOfRange, (byteB s).toNat),
    (m == .div && operandValue s (byteB s) == 0, .divisionByZero, (opByte s).toNat),
    (m == .mod && operandValue s (byteB s) == 0, .moduloByZero, (opByte s).toNat),
    (m == .call && decide (255 < pc + 2), .memoryOutOfRange, 256) ]

/-- Row 9 of R187, the check after the effects. -/
def advanceRow (s : State) (m : Mnemonic) : FaultRow :=
  (!leavesSequence m s.fl && decide (255 < s.pc.toNat + operandCount (opByte s) + 1),
    .memoryOutOfRange, 256)

/-- The checks made before the instruction's first write (rows 1 to 8 of R187), in order. -/
def rowsBeforeEffects (s : State) : List FaultRow :=
  match opcodeMap.lookup (opByte s) with
  | none => [(true, .invalidOpcode, (opByte s).toNat)]
  | some m => assignedRows s m

/-- All the checks of R187, in order. -/
def allRows (s : State) : List FaultRow :=
  match opcodeMap.lookup (opByte s) with
  | none => [(true, .invalidOpcode, (opByte s).toNat)]
  | some m => assignedRows s m ++ [advanceRow s m]

/-- The first check that fires. -/
def firstFault (rows : List FaultRow) : Option (Cause × Nat) :=
  (rows.find? fun r => r.1).map fun r => r.2

end Sys2Proof.Claims

open Sys2Proof Sys2Proof.Machine Sys2Proof.Claims

/-! ## Reset -/

/-- R36, R200, R201: reset, applied in any state with any `ENTRY_PC` and `REG_RESET`, sets every state
element, and leaves Memory as it is. -/
def Obligations.ResetSetsEveryElementAndKeepsMemory : Prop :=
  ∀ (entry : Byte) (regs : Vector Byte 8) (s : State), let t := resetPort entry regs s
    t.run = .running ∧ t.pc = entry ∧ t.fl = 0 ∧ (∀ i : Fin 8, t.reg i = regs[i]) ∧
      t.err = ⟨.noError, 0, 0⟩ ∧ t.out = [] ∧ MemKept s t

/-- The defaults of R36 that the model takes for the open parameters (log entry 2), and the model's own
choice of an empty memory whose bytes read 0 (log entry 1): no rule gives these bytes. -/
def Obligations.DefaultResetHoldsDefaultsAndEmptyMemory : Prop :=
  State.reset.pc = 0 ∧ (∀ i : Fin 8, i ≠ 7 → State.reset.reg i = 0) ∧ State.reset.reg 7 = 0xF4 ∧
    State.reset.run = .running ∧ State.reset.fl = 0 ∧ State.reset.mem = [] ∧
    ∀ a : Byte, State.reset.memRead a = 0

/-! ## The tick -/

/-- R100: when RUN is RUNNING and the bytes at PC decode to an instruction, the step is `exec` of it at
that same state: the step adds nothing around `exec`, which moves PC itself. -/
def Obligations.StepRunsDecodedInstruction : Prop :=
  ∀ (s : State) (i : Instr) (rest : List Byte), s.run = .running →
    decode (streamBytes s) = .ok (i, rest) → step s = exec i s

/-- R101: a tick in HALTED or ERROR_HALTED changes nothing and presents no trace event. -/
def Obligations.TickOutsideRunningDoesNothing : Prop :=
  ∀ s : State, s.run ≠ .running → step s = .next s ∧ tracePort s = none

/-- R103: an unassigned opcode byte raises InvalidOpcode with that byte, wherever it stands and whatever
its top bits say. -/
def Obligations.UnassignedOpcodeRaisesInvalidOpcode : Prop :=
  ∀ s : State, s.run = .running → (∀ m, opcodeMap m ≠ s.memRead s.pc) →
    Takes (step s) s .invalidOpcode (s.memRead s.pc).toNat

/-- R104: an assigned opcode of operand count `n` has exactly its `n` operand bytes taken from PC+1 and
PC+2 and runs; where one of them would be above 255 the tick raises MemoryOutOfRange(256) with no effect. -/
def Obligations.OperandFetchTakesExactlyTheCountOrFaults : Prop :=
  ∀ (s : State) (m : Mnemonic), s.run = .running → s.memRead s.pc = opcodeMap m →
    (s.pc.toNat + operandCount (opcodeMap m) ≤ 255 →
      step s = exec (m.build (s.memRead (s.pc + 1)) (s.memRead (s.pc + 2))) s) ∧
    (255 < s.pc.toNat + operandCount (opcodeMap m) → Takes (step s) s .memoryOutOfRange 256)

/-- R114: the trace port shows PC and the opcode byte of a tick in RUNNING, an illegal byte too. -/
def Obligations.TracePortShowsPcAndOpcode : Prop :=
  ∀ s : State, s.run = .running → tracePort s = some (s.pc, s.memRead s.pc)

/-- R180: the numeric cause codes. -/
def Obligations.CauseCodesAreThoseOfTheTable : Prop :=
  Cause.code .noError = 0 ∧ Cause.code .invalidOpcode = 1 ∧ Cause.code .divisionByZero = 2 ∧
    Cause.code .moduloByZero = 3 ∧ Cause.code .registerIndexOutOfRange = 4 ∧
    Cause.code .memoryOutOfRange = 5 ∧ Cause.code .unimplementedInstruction = 6

/-! ## Encoding -/

/-- Words written out from R76 and R72 (log entry 3), one of each format and family, decode to the
instruction they stand for. -/
def Obligations.WordsOfTheSpecDecode : Prop :=
  decode [0x99, 0x00, 0x08] = .ok (.ldi 0 8, []) ∧ decode [0x43, 0x05] = .ok (.prn 5, []) ∧
    decode [0xA8, 0x00, 0x01] = .ok (.add 0 1, []) ∧ decode [0xB4, 0x02, 0x03] = .ok (.shl 2 3, []) ∧
    decode [0x54, 0x02] = .ok (.jgt 2, []) ∧ decode [0x09, 0x77] = .ok (.ret, [0x77]) ∧
    decode [0x01] = .ok (.hlt, []) ∧ decode [0xFF] = .error (.unassigned 0xFF)

/-- R77 (a), (b), (d) of the default map, whose bytes are the spec's default (log entry 3): injective,
top bits equal to the operand count, 0xFF unassigned. -/
def Obligations.DefaultOpcodeMapMeetsItsConstraints : Prop :=
  (∀ m m', opcodeMap m = opcodeMap m' → m = m') ∧
    (∀ m : Mnemonic, operandCount (opcodeMap m) = m.format.operandCount) ∧ ∀ m, opcodeMap m ≠ 0xFF

/-- R82: for every instruction, the operand count derived from the top two bits of its encoded opcode
byte is the number of its operand bytes. -/
def Obligations.EncodedCountIsTheNumberOfOperandBytes : Prop :=
  ∀ i : Instr, ∃ op, encode i = op :: i.operandBytes ∧ operandCount op = i.operandBytes.length

/-- Decode and encode agree under EVERY opcode map that meets R77: decoding an encoded instruction, with
any operand bytes and any bytes after it, gives it and those bytes back. -/
def Obligations.DecodeInvertsEncodeForEveryOpcodeMap : Prop :=
  ∀ map : OpcodeMap, map.Valid → ∀ (i : Instr) (rest : List Byte),
    decodeWith map (encodeWith map i ++ rest) = .ok (i, rest)

/-- The other direction: under every opcode map that meets R77, bytes that decode to an instruction are
its encoding followed by the rest. -/
def Obligations.DecodedBytesAreTheEncoding : Prop :=
  ∀ map : OpcodeMap, map.Valid → ∀ (bytes rest : List Byte) (i : Instr),
    decodeWith map bytes = .ok (i, rest) → bytes = encodeWith map i ++ rest

/-- R78 of the default map (log entry 3): 32 bytes are assigned, none of 0xC0..0xFF, and an unassigned
byte at the head is rejected by name whatever follows. -/
def Obligations.UnassignedBytesAreRejected : Prop :=
  ((List.range 256).filter fun n => (opcodeMap.lookup (BitVec.ofNat 8 n)).isSome).length = 32 ∧
    (∀ op : Byte, 0xC0 ≤ op.toNat → opcodeMap.lookup op = none) ∧
    ∀ (op : Byte) (rest : List Byte), opcodeMap.lookup op = none →
      decode (op :: rest) = .error (.unassigned op)

/-! ## Load, store, output -/

/-- R120: LDI. -/
def Obligations.LoadImmediateWritesTheByte : Prop :=
  ∀ (a b : Byte) (s : State), encode (.ldi a b) = [0x99, a, b] ∧
    (∀ ha : a.toNat < 8, WritesReg (exec (.ldi a b) s) 3 s ⟨a.toNat, ha⟩ b.toNat) ∧
    (8 ≤ a.toNat → Takes (exec (.ldi a b) s) s .registerIndexOutOfRange a.toNat)

/-- R121: LD reads the byte at the address in `x[rb]`, as it was before `x[ra]` is written. -/
def Obligations.LoadReadsTheByteAtTheAddressRegister : Prop :=
  TwoRegisterRule 0x98 .ld fun s ra rb o => WritesReg o 3 s ra (s.memRead (s.indirect rb)).toNat

/-- R122: ST writes `x[rb]` at the address in `x[ra]`; no register changes. -/
def Obligations.StoreWritesTheByteAtTheAddressRegister : Prop :=
  TwoRegisterRule 0x9A .st fun s ra rb o => ∃ t, o = .next t ∧
    t.memRead (s.indirect ra) = s.reg rb ∧ MemKeptBut (s.indirect ra) s t ∧ RegsKept [] s t ∧
    t.fl = s.fl ∧ t.out = s.out ∧ FellThrough 3 s t

/-- R123, R124: PRN emits (NUM, x[r]), PRA emits (CHR, x[r]). -/
def Obligations.PrintsEmitOneEvent : Prop := EmitRule 0x43 .prn .num ∧ EmitRule 0x42 .pra .chr

/-! ## Arithmetic -/

/-- R131, R132, R133. -/
def Obligations.AddSubMulStoreTheResultModulo256 : Prop :=
  TwoSourceRule 0xA8 .add (fun x y => (x + y) % 256) ∧
    TwoSourceRule 0xA9 .sub (fun x y => (x + 256 - y) % 256) ∧
    TwoSourceRule 0xAA .mul (fun x y => x * y % 256)

/-- R134, R135: unsigned floor quotient and remainder; a zero divisor raises and writes nothing. -/
def Obligations.DivModStoreQuotientAndRemainderOrRaise : Prop :=
  DivideRule 0xAB .div .divisionByZero (fun x y => x / y) ∧
    DivideRule 0xAC .mod .moduloByZero (fun x y => x % y)

/-- R136, R137: the new value is stored. -/
def Obligations.IncDecStoreTheNewValue : Prop :=
  OneSourceRule 0x78 .inc (fun x => (x + 1) % 256) ∧
    OneSourceRule 0x79 .dec (fun x => (x + 255) % 256)

/-! ## Logic, shift, compare -/

/-- R140 to R144: bit `k` of the result depends on bit `k` of the sources only. -/
def Obligations.LogicWorksBitByBit : Prop :=
  BitwiseRule 0xB3 .and (fun x y => x && y) ∧ BitwiseRule 0xB1 .or (fun x y => x || y) ∧
    BitwiseRule 0xB2 .xor (fun x y => x ^^ y) ∧ OneSourceRule 0x70 .not (fun x => 255 - x)

/-- R145, R146: the whole byte is the amount; 8 or more gives 0; zeros are filled in. -/
def Obligations.ShiftsUseTheWholeAmount : Prop :=
  TwoSourceRule 0xB4 .shl (fun x n => if 8 ≤ n then 0 else x * 2 ^ n % 256) ∧
    TwoSourceRule 0xB5 .shr (fun x n => if 8 ≤ n then 0 else x / 2 ^ n)

/-- R147: CMP replaces all of FL by exactly one of E, G, L, by the unsigned values. -/
def Obligations.CompareSetsExactlyOneFlag : Prop :=
  TwoRegisterRule 0xA0 .cmp fun s ra rb o => ∃ t, o = .next t ∧
    ((s.reg ra).toNat = (s.reg rb).toNat → t.fl = 0b00000001) ∧
    ((s.reg ra).toNat > (s.reg rb).toNat → t.fl = 0b00000010) ∧
    ((s.reg ra).toNat < (s.reg rb).toNat → t.fl = 0b00000100) ∧
    RegsKept [] s t ∧ MemKept s t ∧ t.out = s.out ∧ FellThrough 3 s t

/-! ## Jumps -/

/-- R151: JMP always goes to `x[r]`, its own address included. -/
def Obligations.JumpGoesToTheRegister : Prop := JumpRule 0x50 .jmp fun _ => true

/-- R152 to R155: JEQ when E, JNE when not E, JGT when G, JLT when L. -/
def Obligations.ConditionalJumpsTestTheirFlag : Prop :=
  JumpRule 0x51 .jeq (fun fl => fl.getLsbD 0) ∧ JumpRule 0x52 .jne (fun fl => !fl.getLsbD 0) ∧
    JumpRule 0x54 .jgt (fun fl => fl.getLsbD 1) ∧ JumpRule 0x53 .jlt (fun fl => fl.getLsbD 2)

/-- R147, R152 to R155 together: after a CMP that fell through, each conditional jump is taken exactly
when the unsigned values compare so. -/
def Obligations.JumpAfterCompareFollowsTheUnsignedOrder : Prop :=
  ∀ (a b r : Byte) (s : State) (ha : a.toNat < 8) (hb : b.toNat < 8) (hr : r.toNat < 8),
    s.pc.toNat + 5 ≤ 255 → ∃ t, exec (.cmp a b) s = .next t ∧
      let x := (s.reg ⟨a.toNat, ha⟩).toNat
      let y := (s.reg ⟨b.toNat, hb⟩).toNat
      let goes := fun (i : Instr) (c : Prop) => ∃ u, exec i t = .next u ∧
        (c → u.pc = s.reg ⟨r.toNat, hr⟩) ∧ (¬c → u.pc.toNat = s.pc.toNat + 5)
      goes (.jeq r) (x = y) ∧ goes (.jne r) (x ≠ y) ∧ goes (.jgt r) (x > y) ∧ goes (.jlt r) (x < y)

/-! ## Stack and subroutine -/

/-- R161: PUSH decrements SP modulo 256 and stores `x[r]`, read after the decrement, at the new SP. -/
def Obligations.PushStoresBelowTheStackPointer : Prop :=
  OneRegisterRule 0x4D .push fun s r o => ∃ t, o = .next t ∧
    (t.reg 7).toNat = ((s.reg 7).toNat + 255) % 256 ∧ RegsKept [7] s t ∧
    t.memRead s.pushAddr = (if r = 7 then t.reg 7 else s.reg r) ∧ t.reg 7 = s.pushAddr ∧
    MemKeptBut s.pushAddr s t ∧ t.fl = s.fl ∧ t.out = s.out ∧ FellThrough 2 s t

/-- R162: POP loads the byte at SP into `x[r]`, then increments SP modulo 256; POP R7 ends one above the
popped byte; memory is not changed. -/
def Obligations.PopLoadsAtTheStackPointer : Prop :=
  OneRegisterRule 0x4C .pop fun s r o => ∃ t, o = .next t ∧
    (r ≠ 7 → t.reg r = s.memRead (s.reg 7) ∧ (t.reg 7).toNat = ((s.reg 7).toNat + 1) % 256) ∧
    (r = 7 → (t.reg 7).toNat = ((s.memRead (s.reg 7)).toNat + 1) % 256) ∧
    RegsKept [r, 7] s t ∧ MemKept s t ∧ t.fl = s.fl ∧ t.out = s.out ∧ FellThrough 2 s t

/-- R163: CALL pushes PC + 2 and goes to `x[r]`, read after the decrement; at address 254 it raises
MemoryOutOfRange(256) before any effect. -/
def Obligations.CallPushesTheReturnAddress : Prop :=
  OneRegisterRule 0x48 .call fun s r o =>
    (s.pc.toNat + 2 ≤ 255 → ∃ t, o = .next t ∧
      (t.reg 7).toNat = ((s.reg 7).toNat + 255) % 256 ∧ RegsKept [7] s t ∧
      (t.memRead s.pushAddr).toNat = s.pc.toNat + 2 ∧ t.reg 7 = s.pushAddr ∧
      MemKeptBut s.pushAddr s t ∧ t.fl = s.fl ∧ t.out = s.out ∧
      Jumped (if r = 7 then t.reg 7 else s.reg r) s t) ∧
    (s.pc.toNat + 2 = 256 → Takes o s .memoryOutOfRange 256)

/-- R164: RET pops PC; it never raises. -/
def Obligations.ReturnPopsThePc : Prop :=
  encode .ret = [0x09] ∧ ∀ s : State, ∃ t, exec .ret s = .next t ∧
    Jumped (s.memRead (s.reg 7)) s t ∧ (t.reg 7).toNat = ((s.reg 7).toNat + 1) % 256 ∧
    RegsKept [7] s t ∧ MemKept s t ∧ t.fl = s.fl ∧ t.out = s.out

/-- R160 to R162: a PUSH and then a POP into a register other than R7 moves the pushed value there and
leaves SP as it was. -/
def Obligations.PopAfterPushRestoresTheStackPointer : Prop :=
  ∀ (a b : Byte) (s : State) (ha : a.toNat < 8) (hb : b.toNat < 8), a ≠ 7 → b ≠ 7 →
    s.pc.toNat + 4 ≤ 255 → ∃ t u, exec (.push a) s = .next t ∧ exec (.pop b) t = .next u ∧
      u.reg ⟨b.toNat, hb⟩ = s.reg ⟨a.toNat, ha⟩ ∧ u.reg 7 = s.reg 7 ∧
      RegsKept [⟨b.toNat, hb⟩] s u ∧ u.pc.toNat = s.pc.toNat + 4

/-- R160, R163, R164: a RET straight after a CALL comes back to the instruction after the CALL with every
register as it was. -/
def Obligations.ReturnAfterCallComesBack : Prop :=
  ∀ (a : Byte) (s : State), a.toNat < 8 → s.pc.toNat + 2 ≤ 255 →
    ∃ t u, exec (.call a) s = .next t ∧ exec .ret t = .next u ∧
      u.pc.toNat = s.pc.toNat + 2 ∧ RegsKept [] s u ∧ MemKeptBut s.pushAddr s u

/-! ## System -/

/-- R170: NOP changes nothing but PC. -/
def Obligations.NopOnlyAdvances : Prop :=
  encode .nop = [0x00] ∧ ∀ s : State, ∃ t, exec .nop s = .next t ∧ RegsKept [] s t ∧ t.fl = s.fl ∧
    MemKept s t ∧ t.out = s.out ∧ FellThrough 1 s t

/-- R171: HLT sets RUN to HALTED and leaves PC and everything else; every further tick does nothing. -/
def Obligations.HaltStopsAtItsOwnAddress : Prop :=
  encode .hlt = [0x01] ∧ ∀ s : State, ∃ t, exec .hlt s = .next t ∧ t.run = .halted ∧ t.pc = s.pc ∧
    t.err = s.err ∧ RegsKept [] s t ∧ t.fl = s.fl ∧ MemKept s t ∧ t.out = s.out ∧ step t = .next t

/-- R172, R173: INT and IRET always take UnimplementedInstruction with the opcode byte of the tick, which
is 0x4A and 0x0B when a step of the default map runs them; an INT at address 255 raises
MemoryOutOfRange(256) first. -/
def Obligations.IntAndIretAreUnimplemented : Prop :=
  (∀ a : Byte, encode (.int a) = [0x4A, a]) ∧ encode .iret = [0x0B] ∧
    (∀ (a : Byte) (s : State), Takes (exec (.int a) s) s .unimplementedInstruction (opByte s).toNat) ∧
    (∀ s : State, Takes (exec .iret s) s .unimplementedInstruction (opByte s).toNat) ∧
    ∀ s : State, s.run = .running →
      (s.memRead s.pc = 0x4A → s.pc ≠ 255 → Takes (step s) s .unimplementedInstruction 0x4A) ∧
      (s.memRead s.pc = 0x4A → s.pc = 255 → Takes (step s) s .memoryOutOfRange 256) ∧
      (s.memRead s.pc = 0x0B → Takes (step s) s .unimplementedInstruction 0x0B)

/-! ## Exceptions -/

/-- R106, R183: whatever the instruction, the first checked operand that is 8..255 raises
RegisterIndexOutOfRange with that byte and nothing else happens; where all are legal, it is not raised. -/
def Obligations.RegisterIndexCheckReportsTheFirstBadOperand : Prop :=
  ∀ (i : Instr) (s : State),
    (∀ b, (checkedOperands i).find? (fun b => decide (8 ≤ b.toNat)) = some b →
      Takes (exec i s) s .registerIndexOutOfRange b.toNat) ∧
    ((checkedOperands i).find? (fun b => decide (8 ≤ b.toNat)) = none →
      ∃ t, exec i s = .next t ∧ (t.err.cause = .registerIndexOutOfRange → t.err = s.err))

/-- R187: a step raises the first exception of the table's order that applies, and none if none does;
the recorded PC is that of the instruction, and PC stays there. -/
def Obligations.TickRaisesTheFirstFaultOfTheOrder : Prop :=
  ∀ s : State, s.run = .running → ∃ t, step s = .next t ∧
    match firstFault (allRows s) with
    | none => t.run ≠ .errorHalted ∧ t.err = s.err
    | some (cause, info) =>
      t.run = .errorHalted ∧ t.err = ⟨cause, s.pc, BitVec.ofNat 9 info⟩ ∧ t.pc = s.pc

/-- R188: when a check made before the effects fires, the state is exactly the one before the
instruction, but for RUN and ERR. -/
def Obligations.ExceptionsBeforeTheEffectsArePrecise : Prop :=
  ∀ (s : State) (cause : Cause) (info : Nat), s.run = .running →
    firstFault (rowsBeforeEffects s) = some (cause, info) → Takes (step s) s cause info

/-- R110, R188: the advance fault leaves the instruction's effects committed: an instruction that would
have completed at address 0 and fallen through, executed where its last byte is at 255, has the same
registers, FL, memory and OUT, and records MemoryOutOfRange(256) with PC unchanged. -/
def Obligations.AdvanceFaultKeepsTheEffects : Prop :=
  ∀ (i : Instr) (s u : State), leavesSequence i.mnemonic s.fl = false → s.run = .running →
    s.pc.toNat + i.operandBytes.length = 255 → exec i { s with pc := 0 } = .next u →
    u.run = .running →
    exec i s = .next { u with pc := s.pc, run := .errorHalted, err := ⟨.memoryOutOfRange, s.pc, 256⟩ }

/-! ## What no instruction does -/

/-- R30: only CMP writes FL, the whole register, to 1, 2 or 4 (a CMP that takes the index exception
leaves it); and only JEQ, JNE, JGT and JLT read it: for any other instruction another FL before changes
nothing after but FL itself, so none moves FL to a register or to memory. -/
def Obligations.FlagsAreWrittenByCompareAndReadByConditionalJumps : Prop :=
  ∀ (i : Instr) (s t : State), exec i s = .next t →
    (i.mnemonic ≠ .cmp → t.fl = s.fl) ∧
    (∀ a b : Byte, i = .cmp a b →
      if a.toNat < 8 ∧ b.toNat < 8 then t.fl = 1 ∨ t.fl = 2 ∨ t.fl = 4 else t.fl = s.fl) ∧
    ∀ fl : Byte, isConditionalJump i = false → ∃ t', exec i { s with fl := fl } = .next t' ∧
      t' = { t with fl := t'.fl }

/-- R23: every register outside the instruction's written ones is unchanged. -/
def Obligations.OnlyTheNamedRegistersAreWritten : Prop :=
  ∀ (i : Instr) (s t : State) (r : Fin 8), exec i s = .next t →
    BitVec.ofNat 8 r ∉ writtenRegs i → t.reg r = s.reg r

/-- R35, R57: every byte of memory outside the address the instruction stores to is unchanged; all of
memory for an instruction that stores nothing. -/
def Obligations.OnlyTheStoredByteOfMemoryChanges : Prop :=
  ∀ (i : Instr) (s t : State) (x : Byte), exec i s = .next t → storedAddr i s ≠ some x →
    t.memRead x = s.memRead x

/-- R35, R112: OUT grows by exactly the events the instruction emits, in execution order. -/
def Obligations.OutGrowsByTheEmittedEvents : Prop :=
  ∀ (i : Instr) (s t : State), exec i s = .next t → t.out = s.out ++ emittedEvents i s

/-- R32, R33, of steps (reset is no step: log entry 6): a step leaves RUNNING only for HALTED by a HLT,
which keeps ERR, or for ERROR_HALTED with ERR written at PC; no step writes ERR at any other time, and no
step leaves a terminal state. -/
def Obligations.RunningIsLeftOnlyByHltOrARecordedException : Prop :=
  ∀ s t : State, step s = .next t →
    (s.run ≠ .running → t = s) ∧
    (s.run = .running → t.run = .running → t.err = s.err) ∧
    (s.run = .running → (t.run = .halted ↔ s.memRead s.pc = opcodeMap .hlt)) ∧
    (s.run = .running → t.run = .halted → t.err = s.err ∧ t.pc = s.pc) ∧
    (s.run = .running → t.run = .errorHalted →
      t.err.cause ≠ .noError ∧ t.err.pc = s.pc ∧ t.pc = s.pc)

/-- R33, R35: no instruction reads ERR or OUT: a step from a state with another ERR and another OUT ends
with the same registers, PC, FL, RUN and memory, and emits the same events. -/
def Obligations.NoInstructionReadsErrOrOut : Prop :=
  ∀ (s t : State) (err : ErrorRecord) (out : List OutEvent), step s = .next t →
    ∃ (t' : State) (events : List OutEvent), step { s with err := err, out := out } = .next t' ∧
      t' = { t with err := t'.err, out := t'.out } ∧ t.out = s.out ++ events ∧
      t'.out = out ++ events

/-- The model's choice (log entry 9): a step always answers a next state of the host's interface, an
exception being the entry of R186 and a tick outside RUNNING the same state (R101). -/
def Obligations.EveryStepAnswersANextState : Prop := ∀ s : State, ∃ t, step s = .next t

/-! ## Memory and registers -/

/-- R52: a memory write makes the address hold the byte and changes nothing else. -/
def Obligations.MemoryWriteChangesOneByte : Prop :=
  ∀ (s : State) (a v : Byte), (s.memWrite a v).memRead a = v ∧ MemKeptBut a s (s.memWrite a v) ∧
    s.memWrite a v = { s with mem := (s.memWrite a v).mem }

/-- R51: a read returns the byte most recently written to the address, or what was there at first if none
was. -/
def Obligations.MemoryReadsTheLatestWrite : Prop :=
  ∀ (ws : List (Byte × Byte)) (s : State) (a : Byte),
    (ws.foldl (fun s w => s.memWrite w.1 w.2) s).memRead a =
      match ws.reverse.find? fun w => w.1 == a with
      | some w => w.2
      | none => s.memRead a

/-- Two memories in canonical form that read the same at every address are the same data, so equality of
states is equality of contents. -/
def Obligations.CanonicalMemoryIsUnique : Prop :=
  ∀ m m' : Memory, m.wf → m'.wf → (∀ a : Byte, m.read a.toNat = m'.read a.toNat) → m = m'

/-- R20, R21: a register write makes that register hold the byte and changes no other register and no
other state. -/
def Obligations.RegistersAreIndependent : Prop :=
  ∀ (s : State) (i j : Fin 8) (v : Byte), (s.setReg i v).reg i = v ∧
    (j ≠ i → (s.setReg i v).reg j = s.reg j) ∧
    s.setReg i v = { s with regs := (s.setReg i v).regs }

/-- R60: fetch sees the store before it: when a tick in RUNNING executes a ST of byte `v` to the address
just after the ST, the next tick takes `v` as its opcode. -/
def Obligations.NextFetchSeesTheStoredByte : Prop :=
  ∀ (s : State) (ra rb : Fin 8) (rest : List Byte), s.run = .running → s.pc.toNat + 3 ≤ 255 →
    decode (streamBytes s) = .ok (.st (BitVec.ofNat 8 ra) (BitVec.ofNat 8 rb), rest) →
    s.reg ra = s.pc + 3 →
    ∃ t, step s = .next t ∧ tracePort t = some (s.pc + 3, s.reg rb) ∧
      (opcodeMap.lookup (s.reg rb) = none → Takes (step t) t .invalidOpcode (s.reg rb).toNat)

/-- R120, R123: LDI r, v followed immediately by PRN r emits exactly v, wherever the two stand below the
top of memory and whatever the rest of the state. -/
def Obligations.LoadImmediateThenPrintEmitsTheByte : Prop :=
  ∀ (s : State) (r v : Byte) (rest rest' : List Byte), s.run = .running → r.toNat < 8 →
    s.pc.toNat + 5 ≤ 255 → decode (streamBytes s) = .ok (.ldi r v, rest) →
    decode (streamBytes { s with pc := s.pc + 3 }) = .ok (.prn r, rest') →
    ∃ t u, step s = .next t ∧ step t = .next u ∧ u.out = s.out ++ [⟨.num, v⟩] ∧
      u.pc = s.pc + 5 ∧ u.run = .running

/-! ## Invariants and runs -/

/-- Every step keeps the invariant `State.Inv`, from every state that has it; and so does every tick under
every opcode map that meets R77. -/
def Obligations.EveryStepKeepsTheInvariant : Prop :=
  (∀ s t : State, s.Inv opcodeMap → step s = .next t → t.Inv opcodeMap) ∧
    ∀ map : OpcodeMap, map.Valid → ∀ s t : State, s.Inv map → tick map s = .next t → t.Inv map

/-- Reset, with any parameters and any canonical memory, has the invariant. -/
def Obligations.ResetHasTheInvariant : Prop :=
  ∀ (map : OpcodeMap) (entry : Byte) (regs : Vector Byte 8) (image : Memory), image.wf →
    (State.resetWith entry regs image).Inv map

/-- R101, R202: once a run has ended, any number of further ticks leaves the state as it is. -/
def Obligations.AnEndedRunStaysEnded : Prop :=
  ∀ (k : Nat) (s : State), s.ended → Sys2Proof.core.run k s = .next s

/-- R202, for the machine under every value of its four OPEN parameters (R6), from
`EveryStepKeepsTheInvariant` and `ResetHasTheInvariant` by induction on the ticks: a run of any number of
ticks answers a state; if it ended successfully ERR is clear and PC is at a HLT, if it ended in a fault ERR
has a cause and its pc is PC. The two ends exclude each other by their definition. -/
def Obligations.RunsFromResetEndWellOrWithACause : Prop :=
  ∀ (map : OpcodeMap) (k : Nat) (entry : Byte) (regs : Vector Byte 8) (image : Memory),
    map.Valid → image.wf →
    ∃ t : State, (machineOf map entry regs image).run k (State.resetWith entry regs image) = .next t ∧
      (State.endedWell t → t.err = ErrorRecord.clear ∧ t.memRead t.pc = map .hlt) ∧
      (State.endedInFault t → t.err.cause ≠ .noError ∧ t.err.pc = t.pc) ∧
      ¬(State.endedWell t ∧ State.endedInFault t)

/-! ## The opcode map as a parameter -/

/-- R6, R77, R103, R104 under every opcode map that meets R77: a tick in RUNNING raises InvalidOpcode where
the map does not assign the byte at PC, runs the instruction of the mnemonic it assigns with the operand
bytes at PC+1 and PC+2, and raises MemoryOutOfRange(256) where one of these would be above 255. A step is
the tick of the default map. -/
def Obligations.TickUnderEveryMapFollowsThatMap : Prop :=
  (∀ map : OpcodeMap, map.Valid → ∀ s : State, s.run = .running →
    ((∀ m, map m ≠ opByte s) → Takes (tick map s) s .invalidOpcode (opByte s).toNat) ∧
    ∀ m, map m = opByte s →
      (s.pc.toNat + m.format.operandCount ≤ 255 →
        tick map s = exec (m.build (byteA s) (byteB s)) s) ∧
      (255 < s.pc.toNat + m.format.operandCount → Takes (tick map s) s .memoryOutOfRange 256)) ∧
  ∀ s : State, step s = tick opcodeMap s

/-- R180, R182, R185 under every opcode map that meets R77: DIV and MOD by 0 and INT and IRET report the byte
the map gives their mnemonic, which the default map (log entry 3) makes 0xAB, 0xAC, 0x4A and 0x0B. -/
def Obligations.ReportedOpcodeIsTheByteOfTheMap : Prop :=
  (∀ map : OpcodeMap, map.Valid → ∀ s : State, s.run = .running →
    let zeroDivisor := s.pc.toNat + 2 ≤ 255 ∧ (byteA s).toNat < 8 ∧ (byteB s).toNat < 8 ∧
      operandValue s (byteB s) = 0
    (opByte s = map .div → zeroDivisor → Takes (tick map s) s .divisionByZero (map .div).toNat) ∧
    (opByte s = map .mod → zeroDivisor → Takes (tick map s) s .moduloByZero (map .mod).toNat) ∧
    (opByte s = map .int → s.pc.toNat + 1 ≤ 255 →
      Takes (tick map s) s .unimplementedInstruction (map .int).toNat) ∧
    (opByte s = map .iret → Takes (tick map s) s .unimplementedInstruction (map .iret).toNat)) ∧
  opcodeMap .div = 0xAB ∧ opcodeMap .mod = 0xAC ∧ opcodeMap .int = 0x4A ∧ opcodeMap .iret = 0x0B
end

