-- ==== Sys2Proof/Laws/Decode.lean ====
section
/-! SUPPORT. The laws of the opcode map and the decoder (30_encoding). -/

namespace Sys2Proof

theorem Mnemonic.mem_all (m : Mnemonic) : m ∈ Mnemonic.all := by cases m <;> decide

theorem Instr.operandBytes_length (i : Instr) :
    i.operandBytes.length = i.mnemonic.format.operandCount := by cases i <;> rfl

theorem Format.operandCount_le (f : Format) : f.operandCount ≤ 2 := by cases f <;> decide

/-- What the lookup finds is the mnemonic the map assigns to the byte. -/
theorem OpcodeMap.lookup_sound {map : OpcodeMap} {op : Byte} {m : Mnemonic}
    (h : map.lookup op = some m) : map m = op := by
  simpa using List.find?_some h

/-- Every assigned byte is found. -/
theorem OpcodeMap.lookup_none {map : OpcodeMap} {op : Byte} :
    map.lookup op = none ↔ ∀ m, map m ≠ op := by
  rw [OpcodeMap.lookup, List.find?_eq_none]
  exact ⟨fun h m => by simpa using h m m.mem_all, fun h m _ => by simpa using h m⟩

/-- Under an injective map the lookup inverts the map. -/
theorem OpcodeMap.lookup_map {map : OpcodeMap} (h : ∀ m m', map m = map m' → m = m')
    (m : Mnemonic) : map.lookup (map m) = some m := by
  cases hl : map.lookup (map m) with
  | none => exact absurd rfl (OpcodeMap.lookup_none.mp hl m)
  | some m' => rw [h m' m (OpcodeMap.lookup_sound hl)]

/-- Building an instruction from its own mnemonic and operand bytes gives it back. -/
theorem Mnemonic.build_operands (i : Instr) :
    (i.operandBytes = [] ∧ i.mnemonic.format.operandCount = 0 ∧ i.mnemonic.build 0 0 = i) ∨
    (∃ a, i.operandBytes = [a] ∧ i.mnemonic.format.operandCount = 1 ∧ i.mnemonic.build a 0 = i) ∨
    (∃ a b, i.operandBytes = [a, b] ∧ i.mnemonic.format.operandCount = 2 ∧
      i.mnemonic.build a b = i) := by
  cases i
  case nop | hlt | ret | iret => exact .inl ⟨rfl, rfl, rfl⟩
  case pra r | prn r | call r | int r | pop r | push r | jmp r | jeq r | jne r | jlt r | jgt r
    | not r | inc r | dec r => exact .inr (.inl ⟨r, rfl, rfl, rfl⟩)
  case ld a b | ldi a b | st a b | cmp a b | add a b | sub a b | mul a b | div a b | mod a b
    | or a b | xor a b | and a b | shl a b | shr a b => exact .inr (.inr ⟨a, b, rfl, rfl, rfl⟩)

theorem Mnemonic.mnemonic_build (m : Mnemonic) (a b : Byte) : (m.build a b).mnemonic = m := by
  cases m <;> rfl

theorem Mnemonic.operandBytes_build (m : Mnemonic) (a b : Byte) :
    (m.build a b).operandBytes = [a, b].take m.format.operandCount := by cases m <;> rfl

theorem opcodeMap_injective (m m' : Mnemonic) (h : opcodeMap m = opcodeMap m') : m = m' := by
  have key : ∀ m, opcodeMap.lookup (opcodeMap m) = some m := by intro m; cases m <;> rfl
  exact Option.some.inj ((key m).symm.trans (h ▸ key m'))

/-- What `lookup_map` says of a map that meets R77. -/
theorem OpcodeMap.Valid.lookup {map : OpcodeMap} (hv : map.Valid) (m : Mnemonic) :
    map.lookup (map m) = some m := OpcodeMap.lookup_map hv.injective m

theorem opcodeMap_count (m : Mnemonic) : operandCount (opcodeMap m) = m.format.operandCount := by
  cases m <;> rfl

/-- The default map meets R77. -/
theorem opcodeMap_valid : opcodeMap.Valid := ⟨opcodeMap_injective, opcodeMap_count⟩

end Sys2Proof
end

