-- ==== Sys2Proof/Laws/State.lean ====
section
/-! SUPPORT. One lemma per field per update of State, each true by rfl. -/

namespace Sys2Proof.Machine

/-! ## memWrite -/

@[simp] theorem State.memWrite_regs (s : State) (addr v : Byte) : (s.memWrite addr v).regs = s.regs := rfl
@[simp] theorem State.memWrite_pc (s : State) (addr v : Byte) : (s.memWrite addr v).pc = s.pc := rfl
@[simp] theorem State.memWrite_fl (s : State) (addr v : Byte) : (s.memWrite addr v).fl = s.fl := rfl
@[simp] theorem State.memWrite_run (s : State) (addr v : Byte) : (s.memWrite addr v).run = s.run := rfl
@[simp] theorem State.memWrite_err (s : State) (addr v : Byte) : (s.memWrite addr v).err = s.err := rfl
@[simp] theorem State.memWrite_out (s : State) (addr v : Byte) : (s.memWrite addr v).out = s.out := rfl
@[simp] theorem State.memWrite_mem (s : State) (addr v : Byte) :
    (s.memWrite addr v).mem = s.mem.write addr.toNat v := rfl

/-! ## setReg -/

@[simp] theorem State.setReg_pc (s : State) (i : Fin 8) (v : Byte) : (s.setReg i v).pc = s.pc := rfl
@[simp] theorem State.setReg_fl (s : State) (i : Fin 8) (v : Byte) : (s.setReg i v).fl = s.fl := rfl
@[simp] theorem State.setReg_run (s : State) (i : Fin 8) (v : Byte) : (s.setReg i v).run = s.run := rfl
@[simp] theorem State.setReg_err (s : State) (i : Fin 8) (v : Byte) : (s.setReg i v).err = s.err := rfl
@[simp] theorem State.setReg_mem (s : State) (i : Fin 8) (v : Byte) : (s.setReg i v).mem = s.mem := rfl
@[simp] theorem State.setReg_out (s : State) (i : Fin 8) (v : Byte) : (s.setReg i v).out = s.out := rfl

/-! ## decSp -/

@[simp] theorem State.decSp_pc (s : State) : (s.decSp).pc = s.pc := rfl
@[simp] theorem State.decSp_fl (s : State) : (s.decSp).fl = s.fl := rfl
@[simp] theorem State.decSp_run (s : State) : (s.decSp).run = s.run := rfl
@[simp] theorem State.decSp_err (s : State) : (s.decSp).err = s.err := rfl
@[simp] theorem State.decSp_mem (s : State) : (s.decSp).mem = s.mem := rfl
@[simp] theorem State.decSp_out (s : State) : (s.decSp).out = s.out := rfl

/-! ## incSp -/

@[simp] theorem State.incSp_pc (s : State) : (s.incSp).pc = s.pc := rfl
@[simp] theorem State.incSp_fl (s : State) : (s.incSp).fl = s.fl := rfl
@[simp] theorem State.incSp_run (s : State) : (s.incSp).run = s.run := rfl
@[simp] theorem State.incSp_err (s : State) : (s.incSp).err = s.err := rfl
@[simp] theorem State.incSp_mem (s : State) : (s.incSp).mem = s.mem := rfl
@[simp] theorem State.incSp_out (s : State) : (s.incSp).out = s.out := rfl

/-! ## emit -/

@[simp] theorem State.emit_regs (s : State) (kind : OutKind) (v : Byte) : (s.emit kind v).regs = s.regs := rfl
@[simp] theorem State.emit_pc (s : State) (kind : OutKind) (v : Byte) : (s.emit kind v).pc = s.pc := rfl
@[simp] theorem State.emit_fl (s : State) (kind : OutKind) (v : Byte) : (s.emit kind v).fl = s.fl := rfl
@[simp] theorem State.emit_run (s : State) (kind : OutKind) (v : Byte) : (s.emit kind v).run = s.run := rfl
@[simp] theorem State.emit_err (s : State) (kind : OutKind) (v : Byte) : (s.emit kind v).err = s.err := rfl
@[simp] theorem State.emit_mem (s : State) (kind : OutKind) (v : Byte) : (s.emit kind v).mem = s.mem := rfl
@[simp] theorem State.emit_out (s : State) (kind : OutKind) (v : Byte) :
    (s.emit kind v).out = s.out ++ [⟨kind, v⟩] := rfl

/-! ## writeFlags -/

@[simp] theorem State.writeFlags_regs (s : State) (bits : BitVec 3) : (s.writeFlags bits).regs = s.regs := rfl
@[simp] theorem State.writeFlags_pc (s : State) (bits : BitVec 3) : (s.writeFlags bits).pc = s.pc := rfl
@[simp] theorem State.writeFlags_run (s : State) (bits : BitVec 3) : (s.writeFlags bits).run = s.run := rfl
@[simp] theorem State.writeFlags_err (s : State) (bits : BitVec 3) : (s.writeFlags bits).err = s.err := rfl
@[simp] theorem State.writeFlags_mem (s : State) (bits : BitVec 3) : (s.writeFlags bits).mem = s.mem := rfl
@[simp] theorem State.writeFlags_out (s : State) (bits : BitVec 3) : (s.writeFlags bits).out = s.out := rfl
@[simp] theorem State.writeFlags_fl (s : State) (bits : BitVec 3) :
    (s.writeFlags bits).fl = bits.setWidth 8 := rfl

/-! ## Taking an exception (R186) -/

@[simp] theorem takeException_regs (e : Exception) (s : State) : (takeException e s).regs = s.regs := rfl
@[simp] theorem takeException_pc (e : Exception) (s : State) : (takeException e s).pc = s.pc := rfl
@[simp] theorem takeException_fl (e : Exception) (s : State) : (takeException e s).fl = s.fl := rfl
@[simp] theorem takeException_mem (e : Exception) (s : State) : (takeException e s).mem = s.mem := rfl
@[simp] theorem takeException_out (e : Exception) (s : State) : (takeException e s).out = s.out := rfl
@[simp] theorem takeException_run (e : Exception) (s : State) :
    (takeException e s).run = .errorHalted := rfl
@[simp] theorem takeException_err (e : Exception) (s : State) :
    (takeException e s).err = ⟨e.cause, s.pc, e.info⟩ := rfl

/-! ## Reset (R36) -/

@[simp] theorem State.resetWith_regs (pc : Byte) (regs : Vector Byte 8) (image : Memory) :
    (State.resetWith pc regs image).regs = regs := rfl
@[simp] theorem State.resetWith_pc (pc : Byte) (regs : Vector Byte 8) (image : Memory) :
    (State.resetWith pc regs image).pc = pc := rfl
@[simp] theorem State.resetWith_fl (pc : Byte) (regs : Vector Byte 8) (image : Memory) :
    (State.resetWith pc regs image).fl = 0 := rfl
@[simp] theorem State.resetWith_run (pc : Byte) (regs : Vector Byte 8) (image : Memory) :
    (State.resetWith pc regs image).run = .running := rfl
@[simp] theorem State.resetWith_err (pc : Byte) (regs : Vector Byte 8) (image : Memory) :
    (State.resetWith pc regs image).err = ErrorRecord.clear := rfl
@[simp] theorem State.resetWith_mem (pc : Byte) (regs : Vector Byte 8) (image : Memory) :
    (State.resetWith pc regs image).mem = image := rfl
@[simp] theorem State.resetWith_out (pc : Byte) (regs : Vector Byte 8) (image : Memory) :
    (State.resetWith pc regs image).out = [] := rfl

/-! ## Register reads after an update (R20, R21) -/

theorem State.reg_setReg (s : State) (i j : Fin 8) (v : Byte) :
    (s.setReg i v).reg j = if j = i then v else s.reg j := by
  simp only [State.reg, State.setReg, Fin.getElem_fin, Vector.getElem_set, Fin.ext_iff, eq_comm]

@[simp] theorem State.reg_setReg_same (s : State) (i : Fin 8) (v : Byte) :
    (s.setReg i v).reg i = v := by simp [State.reg_setReg]

theorem State.reg_setReg_other (s : State) {i j : Fin 8} (v : Byte) (h : j ≠ i) :
    (s.setReg i v).reg j = s.reg j := by simp [State.reg_setReg, h]

@[simp] theorem State.reg_memWrite (s : State) (addr v : Byte) (j : Fin 8) :
    (s.memWrite addr v).reg j = s.reg j := rfl
@[simp] theorem State.reg_emit (s : State) (kind : OutKind) (v : Byte) (j : Fin 8) :
    (s.emit kind v).reg j = s.reg j := rfl
@[simp] theorem State.reg_writeFlags (s : State) (bits : BitVec 3) (j : Fin 8) :
    (s.writeFlags bits).reg j = s.reg j := rfl
@[simp] theorem State.reg_takeException (e : Exception) (s : State) (j : Fin 8) :
    (takeException e s).reg j = s.reg j := rfl

theorem State.reg_decSp (s : State) (j : Fin 8) :
    s.decSp.reg j = if j = spIndex then s.sp - 1 else s.reg j := State.reg_setReg ..
theorem State.reg_incSp (s : State) (j : Fin 8) :
    s.incSp.reg j = if j = spIndex then s.sp + 1 else s.reg j := State.reg_setReg ..

end Sys2Proof.Machine
end

