-- ==== Sys2Proof/Laws/Memory.lean ====
section
/-! SUPPORT. The laws of memory (20_memory R51, R52): a read after a write, the canonical form kept by
every operation, and equal contents as equal data. -/

namespace Sys2Proof.Machine

theorem Memory.read_erase (m : Memory) (a b : Nat) :
    (m.erase a).read b = if b = a then Config.unlistedByte else m.read b := by
  induction m with
  | nil => simp [Memory.erase, Memory.read]
  | cons c m ih =>
    obtain ⟨k, v⟩ := c
    simp only [Memory.erase] at ih
    by_cases hk : k = a
    · subst hk
      by_cases hb : b = k
      · simp_all [Memory.erase]
      · simp_all [Memory.erase, Memory.read, Ne.symm hb]
    · by_cases hb : k = b
      · subst hb; simp [Memory.erase, Memory.read, hk]
      · simp_all [Memory.erase, Memory.read]

theorem Memory.read_insert (m : Memory) (a b : Nat) (v : Byte) (hm : ∀ c ∈ m, c.1 ≠ a) :
    (m.insert a v).read b = if b = a then v else m.read b := by
  induction m with
  | nil => by_cases hb : b = a <;> simp [Memory.insert, Memory.read, hb, Ne.symm]
  | cons c m ih =>
    obtain ⟨k, w⟩ := c
    have hk : k ≠ a := hm (k, w) (by simp)
    have ih := ih fun c hc => hm c (List.mem_cons_of_mem _ hc)
    rw [Memory.insert]
    split
    · by_cases hb : b = a
      · simp [Memory.read, hb]
      · simp [Memory.read, hb, Ne.symm hb]
    · rw [Memory.read, ih]
      by_cases hb : k = b
      · subst hb; simp [Memory.read, hk]
      · simp [Memory.read, hb]

theorem Memory.mem_erase_ne (m : Memory) (a : Nat) : ∀ c ∈ m.erase a, c.1 ≠ a := by
  intro c hc
  simpa using (List.mem_filter.mp hc).2

/-- R51, R52: after a write, the written address reads the byte and every other address reads as
before. -/
theorem Memory.read_write (m : Memory) (a b : Nat) (v : Byte) :
    (m.write a v).read b = if b = a then v else m.read b := by
  rw [Memory.write]
  split
  · next h => rw [Memory.read_erase, h]
  · rw [Memory.read_insert _ _ _ _ (Memory.mem_erase_ne m a),
      Memory.read_erase]
    split <;> rfl

theorem Memory.erase_wf {m : Memory} (h : m.wf) (a : Nat) : (m.erase a).wf :=
  ⟨h.1.filter _, fun c hc => h.2 c (List.mem_filter.mp hc).1⟩

theorem Memory.mem_insert {m : Memory} {a : Nat} {v : Byte} {c : Host.Cell}
    (h : c ∈ m.insert a v) : c = (a, v) ∨ c ∈ m := by
  induction m with
  | nil => simpa [Memory.insert] using h
  | cons d m ih =>
    obtain ⟨k, w⟩ := d
    rw [Memory.insert] at h
    split at h
    · simpa using h
    · rcases List.mem_cons.mp h with h | h
      · exact .inr (by simp [h])
      · exact (ih h).imp id (List.mem_cons_of_mem _)

theorem Memory.insert_sorted {m : Memory} {a : Nat} {v : Byte}
    (h : m.Pairwise fun c d => c.1 < d.1) (hm : ∀ c ∈ m, c.1 ≠ a) :
    (m.insert a v).Pairwise fun c d => c.1 < d.1 := by
  induction m with
  | nil => simp [Memory.insert]
  | cons c m ih =>
    obtain ⟨k, w⟩ := c
    have hk : k ≠ a := hm (k, w) (by simp)
    obtain ⟨hhead, htail⟩ := List.pairwise_cons.mp h
    rw [Memory.insert]
    split
    · next hlt =>
      refine List.pairwise_cons.mpr ⟨fun d hd => ?_, h⟩
      rcases List.mem_cons.mp hd with rfl | hd
      · exact hlt
      · exact hlt.trans (hhead d hd)
    · next hge =>
      refine List.pairwise_cons.mpr
        ⟨fun d hd => ?_, ih htail fun c hc => hm c (List.mem_cons_of_mem _ hc)⟩
      rcases Memory.mem_insert hd with rfl | hd
      · exact show k < a by omega
      · exact hhead d hd

/-- Every write keeps the canonical form. -/
theorem Memory.write_wf {m : Memory} (h : m.wf) {a : Nat} (ha : a < Config.memSize) (v : Byte) :
    (m.write a v).wf := by
  rw [Memory.write]
  split
  · exact Memory.erase_wf h a
  · next hv =>
    refine ⟨Memory.insert_sorted (Memory.erase_wf h a).1 (Memory.mem_erase_ne m a), fun c hc => ?_⟩
    rcases Memory.mem_insert hc with rfl | hc
    · exact ⟨ha, hv⟩
    · exact (Memory.erase_wf h a).2 c hc

theorem Memory.nil_wf : Memory.wf [] := by simp [Memory.wf]

theorem byte_lt_memSize (a : Byte) : a.toNat < Config.memSize := a.isLt

theorem State.memWrite_wf {s : State} (h : s.mem.wf) (a v : Byte) : (s.memWrite a v).mem.wf :=
  Memory.write_wf h (byte_lt_memSize a) v

theorem Memory.read_eq_of_mem {m : Memory} (h : m.wf) {k : Nat} {v : Byte} (hc : (k, v) ∈ m) :
    m.read k = v := by
  induction m with
  | nil => simp at hc
  | cons d m ih =>
    obtain ⟨j, w⟩ := d
    obtain ⟨hp, hq⟩ := h
    obtain ⟨hhead, htail⟩ := List.pairwise_cons.mp hp
    rcases List.mem_cons.mp hc with h' | h'
    · cases h'; simp [Memory.read]
    · have hlt : j < k := hhead _ h'
      rw [Memory.read, if_neg (by omega)]
      exact ih ⟨htail, fun c hc => hq c (List.mem_cons_of_mem _ hc)⟩ h'

theorem Memory.mem_of_read_ne {m : Memory} {k : Nat} (h : m.read k ≠ Config.unlistedByte) :
    (k, m.read k) ∈ m := by
  induction m with
  | nil => simp [Memory.read] at h
  | cons d m ih =>
    obtain ⟨j, w⟩ := d
    rw [Memory.read] at h ⊢
    split
    · next hj => simp [hj]
    · next hj => rw [if_neg hj] at h; exact List.mem_cons_of_mem _ (ih h)

/-! ## The state's memory port -/

theorem State.memRead_memWrite (s : State) (a b v : Byte) :
    (s.memWrite a v).memRead b = if b = a then v else s.memRead b := by
  simp only [State.memRead, State.memWrite_mem, Memory.read_write, BitVec.toNat_inj]

@[simp] theorem State.memRead_setReg (s : State) (i : Fin 8) (v b : Byte) :
    (s.setReg i v).memRead b = s.memRead b := rfl
@[simp] theorem State.memRead_emit (s : State) (kind : OutKind) (v b : Byte) :
    (s.emit kind v).memRead b = s.memRead b := rfl
@[simp] theorem State.memRead_writeFlags (s : State) (bits : BitVec 3) (b : Byte) :
    (s.writeFlags bits).memRead b = s.memRead b := rfl
@[simp] theorem State.memRead_takeException (e : Exception) (s : State) (b : Byte) :
    (takeException e s).memRead b = s.memRead b := rfl
@[simp] theorem State.memRead_decSp (s : State) (b : Byte) : s.decSp.memRead b = s.memRead b := rfl
@[simp] theorem State.memRead_incSp (s : State) (b : Byte) : s.incSp.memRead b = s.memRead b := rfl

end Sys2Proof.Machine
end

