-- ==== Sys2Proof/Laws/Ops.lean ====
section
/-! SUPPORT. What the shared operations do: the advance (R109, R110), the end of a tick (R100), the
register-index check (R106), the ALU (R130 to R147) and the return address of CALL (R163). -/

namespace Sys2Proof.Machine

/-! ## The advance -/

theorem streamAddr_toNat (pc : Byte) {k : Nat} (hk : k ≤ 256) :
    (streamAddr pc k).toNat = pc.toNat + k := by
  have := pc.isLt
  rw [streamAddr, BitVec.toNat_add, BitVec.toNat_setWidth, BitVec.toNat_ofNat]
  omega

theorem advance_fits {n : Nat} {s : State} (h : s.pc.toNat + n + 1 ≤ 255) :
    advance n s = { s with pc := s.pc + BitVec.ofNat 8 (n + 1) } := by
  have hs := streamAddr_toNat s.pc (k := n + 1) (by omega)
  rw [advance, if_pos (by simp only [hs, Config.memSize]; omega)]
  congr 1
  apply BitVec.eq_of_toNat_eq
  rw [BitVec.toNat_setWidth, hs, BitVec.toNat_add, BitVec.toNat_ofNat]
  omega

theorem advance_overflows {n : Nat} {s : State} (h : s.pc.toNat + n + 1 = 256) :
    advance n s = takeException (.memoryOutOfRange 256) s := by
  have hs := streamAddr_toNat s.pc (k := n + 1) (by omega)
  rw [advance, if_neg (by simp only [hs, Config.memSize]; omega)]
  congr 2
  apply BitVec.eq_of_toNat_eq
  rw [hs]; simpa [Nat.add_assoc] using h

/-- Everything an advance can do. -/
theorem advance_cases {n : Nat} (s : State) (hn : n ≤ 2) :
    (s.pc.toNat + n + 1 ≤ 255 ∧ advance n s = { s with pc := s.pc + BitVec.ofNat 8 (n + 1) }) ∨
    (256 ≤ s.pc.toNat + n + 1 ∧
      advance n s = takeException (.memoryOutOfRange (streamAddr s.pc (n + 1))) s) := by
  by_cases h : s.pc.toNat + n + 1 ≤ 255
  · exact .inl ⟨h, advance_fits h⟩
  · have hs := streamAddr_toNat s.pc (k := n + 1) (by omega)
    exact .inr ⟨by omega, by rw [advance, if_neg (by simp only [hs, Config.memSize]; omega)]⟩

@[simp] theorem advance_regs (n : Nat) (s : State) : (advance n s).regs = s.regs := by
  unfold advance; split <;> rfl
@[simp] theorem advance_fl (n : Nat) (s : State) : (advance n s).fl = s.fl := by
  unfold advance; split <;> rfl
@[simp] theorem advance_mem (n : Nat) (s : State) : (advance n s).mem = s.mem := by
  unfold advance; split <;> rfl
@[simp] theorem advance_out (n : Nat) (s : State) : (advance n s).out = s.out := by
  unfold advance; split <;> rfl
@[simp] theorem State.reg_advance (n : Nat) (s : State) (i : Fin 8) :
    (advance n s).reg i = s.reg i := by unfold advance; split <;> rfl
@[simp] theorem State.memRead_advance (n : Nat) (s : State) (a : Byte) :
    (advance n s).memRead a = s.memRead a := by unfold advance; split <;> rfl

theorem complete_raised (n : Nat) (s : State) (e : Exception) :
    complete n s (.raised e) = .next (takeException e s) := rfl
theorem complete_fallThrough (n : Nat) (s t : State) :
    complete n s (.fallThrough t) = .next (advance n t) := rfl
theorem complete_taken (n : Nat) (s t : State) (p : Byte) :
    complete n s (.taken t p) = .next { t with pc := p } := rfl
theorem complete_halt (n : Nat) (s t : State) :
    complete n s (.halt t) = .next { t with run := .halted } := rfl

/-! ## The register-index check -/

theorem withReg_legal {a : Byte} (h : a.toNat < 8) (k : Fin 8 → Effect) :
    withReg a k = k ⟨a.toNat, h⟩ := by simp [withReg, regIndex, h]

theorem withReg_illegal {a : Byte} (h : 8 ≤ a.toNat) (k : Fin 8 → Effect) :
    withReg a k = .raised (.registerIndexOutOfRange a) := by
  simp [withReg, regIndex, Nat.not_lt.mpr h]

theorem withRegs_legal {a b : Byte} (ha : a.toNat < 8) (hb : b.toNat < 8)
    (k : Fin 8 → Fin 8 → Effect) : withRegs a b k = k ⟨a.toNat, ha⟩ ⟨b.toNat, hb⟩ := by
  rw [withRegs, withReg_legal ha, withReg_legal hb]

theorem withRegs_illegal_first {a b : Byte} (ha : 8 ≤ a.toNat) (k : Fin 8 → Fin 8 → Effect) :
    withRegs a b k = .raised (.registerIndexOutOfRange a) := withReg_illegal ha _

theorem withRegs_illegal_second {a b : Byte} (ha : a.toNat < 8) (hb : 8 ≤ b.toNat)
    (k : Fin 8 → Fin 8 → Effect) : withRegs a b k = .raised (.registerIndexOutOfRange b) := by
  rw [withRegs, withReg_legal ha, withReg_illegal hb]

/-- Everything a one-register instruction can do. -/
theorem withReg_cases (a : Byte) (k : Fin 8 → Effect) :
    (∃ h : a.toNat < 8, withReg a k = k ⟨a.toNat, h⟩) ∨
    (8 ≤ a.toNat ∧ withReg a k = .raised (.registerIndexOutOfRange a)) := by
  by_cases h : a.toNat < 8
  · exact .inl ⟨h, withReg_legal h k⟩
  · exact .inr ⟨by omega, withReg_illegal (by omega) k⟩

/-- Everything a two-register instruction can do. -/
theorem withRegs_cases (a b : Byte) (k : Fin 8 → Fin 8 → Effect) :
    (∃ (ha : a.toNat < 8) (hb : b.toNat < 8), withRegs a b k = k ⟨a.toNat, ha⟩ ⟨b.toNat, hb⟩) ∨
    (∃ c : Byte, 8 ≤ c.toNat ∧ withRegs a b k = .raised (.registerIndexOutOfRange c)) := by
  rcases withReg_cases a fun ra => withReg b fun rb => k ra rb with ⟨ha, h⟩ | ⟨ha, h⟩
  · rcases withReg_cases b (k ⟨a.toNat, ha⟩) with ⟨hb, h'⟩ | ⟨hb, h'⟩
    · exact .inl ⟨ha, hb, h.trans h'⟩
    · exact .inr ⟨b, hb, h.trans h'⟩
  · exact .inr ⟨a, ha, h⟩

/-! ## The ALU, in the numbers of R131 to R147 -/

theorem alu_add_toNat (a b : Byte) : (a + b).toNat = (a.toNat + b.toNat) % 256 :=
  BitVec.toNat_add a b
theorem alu_sub_toNat (a b : Byte) : (a - b).toNat = (a.toNat + 256 - b.toNat) % 256 := by
  have := b.isLt
  rw [BitVec.toNat_sub]; congr 1; omega
theorem alu_mul_toNat (a b : Byte) : (a * b).toNat = a.toNat * b.toNat % 256 :=
  BitVec.toNat_mul a b

theorem aluCompare_cases (a b : Byte) :
    (a.toNat = b.toNat ∧ aluCompare a b = 1) ∨ (b.toNat < a.toNat ∧ aluCompare a b = 2) ∨
    (a.toNat < b.toNat ∧ aluCompare a b = 4) := by
  unfold aluCompare
  split
  · exact .inl ⟨‹_›, rfl⟩
  · split
    · exact .inr (.inl ⟨‹_›, rfl⟩)
    · exact .inr (.inr ⟨by omega, rfl⟩)

theorem shiftLeft_toNat (a b : Byte) :
    (shiftLeft a b).toNat = if 8 ≤ b.toNat then 0 else a.toNat * 2 ^ b.toNat % 256 := by
  unfold shiftLeft
  split
  · rfl
  · rw [BitVec.toNat_shiftLeft, Nat.shiftLeft_eq]

theorem shiftRight_toNat (a b : Byte) :
    (shiftRight a b).toNat = if 8 ≤ b.toNat then 0 else a.toNat / 2 ^ b.toNat := by
  unfold shiftRight
  split
  · rfl
  · rw [BitVec.toNat_ushiftRight, Nat.shiftRight_eq_div_pow]

/-- The ALU fails on DIV and MOD by 0 and nowhere else (R107). -/
theorem aluApply_error {op : AluOp} {a b : Byte} {e : AluError} (h : aluApply op a b = .error e) :
    b = 0 ∧ ((op = .div ∧ e = .divideByZero) ∨ (op = .mod ∧ e = .moduloByZero)) := by
  cases op <;> simp only [aluApply, reduceCtorEq] at h <;>
    (split at h
     · next hb => cases h; simp [hb]
     · cases h)

/-! ## The stack and CALL's return address -/

theorem returnAddr_toNat (s : State) : (returnAddr s).toNat = s.pc.toNat + 2 :=
  streamAddr_toNat s.pc (by omega)

end Sys2Proof.Machine
end

