-- ==== Sys2Proof/Laws/Exec.lean ====
section
/-! SUPPORT. What one instruction can do, said once (40_tick_and_dispatch R100): `exec_cases` gives, for
every instruction and state, the effect `exec` completes and what that effect may have changed. -/

namespace Sys2Proof.Machine

/-- `t` is `s` with the effects of `i` committed and PC, RUN and ERR not yet touched. -/
structure Committed (i : Instr) (s t : State) : Prop where
  pc : t.pc = s.pc
  run : t.run = s.run
  err : t.err = s.err
  fl : t.fl = s.fl ∨ (i.mnemonic = .cmp ∧ (t.fl = 1 ∨ t.fl = 2 ∨ t.fl = 4))
  mem : t.mem = s.mem ∨ ∃ a v : Byte, t.mem = s.mem.write a.toNat v
  out : t.out = s.out ∨ ∃ e, (i.mnemonic = .prn ∨ i.mnemonic = .pra) ∧ t.out = s.out ++ [e]

/-- The exceptions an instruction can raise in `s`, with what they report. -/
def Exception.FromExec (s : State) : Exception → Prop
  | .registerIndexOutOfRange b => 8 ≤ b.toNat
  | .memoryOutOfRange addr => addr = returnAddr s ∧ 256 ≤ addr.toNat
  | .divisionByZero _ => True
  | .moduloByZero _ => True
  | .unimplementedInstruction _ => True
  | .invalidOpcode _ => False

/-- What the effect of `i` in `s` may be. -/
def Effect.Legal (i : Instr) (s : State) : Effect → Prop
  | .raised e => e.FromExec s
  | .fallThrough t => Committed i s t ∧ i ≠ .hlt
  | .taken t _ => Committed i s t ∧ i ≠ .hlt
  | .halt t => t = s ∧ i = .hlt

theorem Committed.refl (i : Instr) (s : State) : Committed i s s :=
  ⟨rfl, rfl, rfl, .inl rfl, .inl rfl, .inl rfl⟩

theorem committed_setReg (i : Instr) (s : State) (r : Fin 8) (v : Byte) :
    Committed i s (s.setReg r v) := ⟨rfl, rfl, rfl, .inl rfl, .inl rfl, .inl rfl⟩

theorem withReg_effect_legal {i : Instr} {s : State} {a : Byte} {k : Fin 8 → Effect}
    (h : ∀ r, (k r).Legal i s) : (withReg a k).Legal i s := by
  rcases withReg_cases a k with ⟨_, hk⟩ | ⟨ha, hk⟩
  · rw [hk]; exact h _
  · rw [hk]; exact ha

theorem withRegs_effect_legal {i : Instr} {s : State} {a b : Byte} {k : Fin 8 → Fin 8 → Effect}
    (h : ∀ ra rb, (k ra rb).Legal i s) : (withRegs a b k).Legal i s :=
  withReg_effect_legal fun ra => withReg_effect_legal fun rb => h ra rb

theorem writeResult_effect_legal {i : Instr} (hi : i ≠ .hlt) (s : State) (r : Fin 8)
    (y : Except AluError Byte) : (writeResult s r y).Legal i s := by
  cases y with
  | ok v => exact ⟨committed_setReg i s r v, hi⟩
  | error e => cases e <;> exact trivial

theorem aluTwoSource_legal {i : Instr} (hi : i ≠ .hlt) (op : AluOp) (a b : Byte) (s : State) :
    (aluTwoSource op a b s).Legal i s :=
  withRegs_effect_legal fun _ _ => writeResult_effect_legal hi ..

theorem aluOneSource_legal {i : Instr} (hi : i ≠ .hlt) (op : AluOp) (a : Byte) (s : State) :
    (aluOneSource op a s).Legal i s :=
  withReg_effect_legal fun _ => writeResult_effect_legal hi ..

theorem jumpWhen_legal {i : Instr} (hi : i ≠ .hlt) (cond : Bool) (a : Byte) (s : State) :
    (jumpWhen cond a s).Legal i s :=
  withReg_effect_legal fun _ => by cases cond <;> exact ⟨Committed.refl i s, hi⟩

theorem writeFlags_fl_legal (s : State) (a b : Byte) :
    (s.writeFlags (aluCompare a b)).fl = 1 ∨ (s.writeFlags (aluCompare a b)).fl = 2 ∨
      (s.writeFlags (aluCompare a b)).fl = 4 := by
  rw [State.writeFlags_fl]
  rcases aluCompare_cases a b with ⟨_, h⟩ | ⟨_, h⟩ | ⟨_, h⟩ <;> rw [h] <;> decide

/-- Everything `exec` can do: it completes an effect that is legal for the instruction. -/
theorem exec_cases (i : Instr) (s : State) :
    ∃ f : Effect, exec i s = complete i.operandBytes.length s f ∧ f.Legal i s := by
  cases i <;> refine ⟨_, rfl, ?_⟩
  case nop => exact ⟨Committed.refl _ s, by simp⟩
  case hlt => exact ⟨rfl, rfl⟩
  case ret => exact ⟨committed_setReg _ s _ _, by simp⟩
  case int => exact trivial
  case iret => exact trivial
  case add | sub | mul | div | mod | and | or | xor | shl | shr => exact aluTwoSource_legal (by simp) ..
  case inc | dec | not => exact aluOneSource_legal (by simp) ..
  case jmp | jeq | jne | jgt | jlt => exact jumpWhen_legal (by simp) ..
  case ldi => exact withReg_effect_legal fun _ => ⟨committed_setReg _ s _ _, by simp⟩
  case ld => exact withRegs_effect_legal fun _ _ => ⟨committed_setReg _ s _ _, by simp⟩
  case st =>
    exact withRegs_effect_legal fun _ _ =>
      ⟨⟨rfl, rfl, rfl, .inl rfl, .inr ⟨_, _, rfl⟩, .inl rfl⟩, by simp⟩
  case cmp =>
    exact withRegs_effect_legal fun _ _ =>
      ⟨⟨rfl, rfl, rfl, .inr ⟨rfl, writeFlags_fl_legal ..⟩, .inl rfl, .inl rfl⟩, by simp⟩
  case prn =>
    exact withReg_effect_legal fun _ =>
      ⟨⟨rfl, rfl, rfl, .inl rfl, .inl rfl, .inr ⟨_, .inl rfl, rfl⟩⟩, by simp⟩
  case pra =>
    exact withReg_effect_legal fun _ =>
      ⟨⟨rfl, rfl, rfl, .inl rfl, .inl rfl, .inr ⟨_, .inr rfl, rfl⟩⟩, by simp⟩
  case push =>
    exact withReg_effect_legal fun _ =>
      ⟨⟨rfl, rfl, rfl, .inl rfl, .inr ⟨_, _, rfl⟩, .inl rfl⟩, by simp⟩
  case pop => exact withReg_effect_legal fun _ => ⟨⟨rfl, rfl, rfl, .inl rfl, .inl rfl, .inl rfl⟩, by simp⟩
  case call =>
    refine withReg_effect_legal fun r => ?_
    split
    · exact ⟨⟨rfl, rfl, rfl, .inl rfl, .inr ⟨_, _, rfl⟩, .inl rfl⟩, by simp⟩
    · next h => exact ⟨rfl, Nat.le_of_not_lt h⟩

/-- `exec` always answers a next state, that of its effect. -/
theorem exec_next {i : Instr} {s t : State} (h : exec i s = .next t) :
    ∃ f : Effect, f.Legal i s ∧ t = f.finish i.operandBytes.length s := by
  obtain ⟨f, hf, hl⟩ := exec_cases i s
  rw [hf, complete] at h
  exact ⟨f, hl, (Host.Outcome.next.inj h).symm⟩

end Sys2Proof.Machine
end

