-- ==== Sys2Proof/Laws/PerInstr.lean ====
section
/-! SUPPORT. What holds of every instruction as syntax, one lemma per constructor. -/

namespace Sys2Proof.Laws

/-- The opcode byte of `i` is looked up as the mnemonic of `i` (R75, R77). -/
def OpcodeLookup.Statement (i : Instr) : Prop :=
  opcodeMap.lookup (opcodeMap i.mnemonic) = some i.mnemonic

/-- The operand bytes of `i` are as many as its format has, and its register-index operands stand among
them, operand A first (R72). -/
def OperandShape.Statement (i : Instr) : Prop :=
  i.operandBytes.length = i.mnemonic.format.operandCount ∧ i.registerOperands <+: i.operandBytes

theorem OpcodeLookup.nop : OpcodeLookup.Statement .nop := rfl
theorem OpcodeLookup.hlt : OpcodeLookup.Statement .hlt := rfl
theorem OpcodeLookup.ret : OpcodeLookup.Statement .ret := rfl
theorem OpcodeLookup.iret : OpcodeLookup.Statement .iret := rfl
theorem OpcodeLookup.pra (r : Byte) : OpcodeLookup.Statement (.pra r) := rfl
theorem OpcodeLookup.prn (r : Byte) : OpcodeLookup.Statement (.prn r) := rfl
theorem OpcodeLookup.call (r : Byte) : OpcodeLookup.Statement (.call r) := rfl
theorem OpcodeLookup.int (r : Byte) : OpcodeLookup.Statement (.int r) := rfl
theorem OpcodeLookup.pop (r : Byte) : OpcodeLookup.Statement (.pop r) := rfl
theorem OpcodeLookup.push (r : Byte) : OpcodeLookup.Statement (.push r) := rfl
theorem OpcodeLookup.jmp (r : Byte) : OpcodeLookup.Statement (.jmp r) := rfl
theorem OpcodeLookup.jeq (r : Byte) : OpcodeLookup.Statement (.jeq r) := rfl
theorem OpcodeLookup.jne (r : Byte) : OpcodeLookup.Statement (.jne r) := rfl
theorem OpcodeLookup.jlt (r : Byte) : OpcodeLookup.Statement (.jlt r) := rfl
theorem OpcodeLookup.jgt (r : Byte) : OpcodeLookup.Statement (.jgt r) := rfl
theorem OpcodeLookup.not (r : Byte) : OpcodeLookup.Statement (.not r) := rfl
theorem OpcodeLookup.inc (r : Byte) : OpcodeLookup.Statement (.inc r) := rfl
theorem OpcodeLookup.dec (r : Byte) : OpcodeLookup.Statement (.dec r) := rfl
theorem OpcodeLookup.ld (ra rb : Byte) : OpcodeLookup.Statement (.ld ra rb) := rfl
theorem OpcodeLookup.ldi (r imm : Byte) : OpcodeLookup.Statement (.ldi r imm) := rfl
theorem OpcodeLookup.st (ra rb : Byte) : OpcodeLookup.Statement (.st ra rb) := rfl
theorem OpcodeLookup.cmp (ra rb : Byte) : OpcodeLookup.Statement (.cmp ra rb) := rfl
theorem OpcodeLookup.add (ra rb : Byte) : OpcodeLookup.Statement (.add ra rb) := rfl
theorem OpcodeLookup.sub (ra rb : Byte) : OpcodeLookup.Statement (.sub ra rb) := rfl
theorem OpcodeLookup.mul (ra rb : Byte) : OpcodeLookup.Statement (.mul ra rb) := rfl
theorem OpcodeLookup.div (ra rb : Byte) : OpcodeLookup.Statement (.div ra rb) := rfl
theorem OpcodeLookup.mod (ra rb : Byte) : OpcodeLookup.Statement (.mod ra rb) := rfl
theorem OpcodeLookup.or (ra rb : Byte) : OpcodeLookup.Statement (.or ra rb) := rfl
theorem OpcodeLookup.xor (ra rb : Byte) : OpcodeLookup.Statement (.xor ra rb) := rfl
theorem OpcodeLookup.and (ra rb : Byte) : OpcodeLookup.Statement (.and ra rb) := rfl
theorem OpcodeLookup.shl (ra rb : Byte) : OpcodeLookup.Statement (.shl ra rb) := rfl
theorem OpcodeLookup.shr (ra rb : Byte) : OpcodeLookup.Statement (.shr ra rb) := rfl

theorem OperandShape.nop : OperandShape.Statement .nop := ⟨rfl, by simp [Instr.registerOperands, Instr.operandBytes]⟩
theorem OperandShape.hlt : OperandShape.Statement .hlt := ⟨rfl, by simp [Instr.registerOperands, Instr.operandBytes]⟩
theorem OperandShape.ret : OperandShape.Statement .ret := ⟨rfl, by simp [Instr.registerOperands, Instr.operandBytes]⟩
theorem OperandShape.iret : OperandShape.Statement .iret := ⟨rfl, by simp [Instr.registerOperands, Instr.operandBytes]⟩
theorem OperandShape.pra (r : Byte) : OperandShape.Statement (.pra r) := ⟨rfl, by simp [Instr.registerOperands, Instr.operandBytes]⟩
theorem OperandShape.prn (r : Byte) : OperandShape.Statement (.prn r) := ⟨rfl, by simp [Instr.registerOperands, Instr.operandBytes]⟩
theorem OperandShape.call (r : Byte) : OperandShape.Statement (.call r) := ⟨rfl, by simp [Instr.registerOperands, Instr.operandBytes]⟩
theorem OperandShape.int (r : Byte) : OperandShape.Statement (.int r) := ⟨rfl, by simp [Instr.registerOperands, Instr.operandBytes]⟩
theorem OperandShape.pop (r : Byte) : OperandShape.Statement (.pop r) := ⟨rfl, by simp [Instr.registerOperands, Instr.operandBytes]⟩
theorem OperandShape.push (r : Byte) : OperandShape.Statement (.push r) := ⟨rfl, by simp [Instr.registerOperands, Instr.operandBytes]⟩
theorem OperandShape.jmp (r : Byte) : OperandShape.Statement (.jmp r) := ⟨rfl, by simp [Instr.registerOperands, Instr.operandBytes]⟩
theorem OperandShape.jeq (r : Byte) : OperandShape.Statement (.jeq r) := ⟨rfl, by simp [Instr.registerOperands, Instr.operandBytes]⟩
theorem OperandShape.jne (r : Byte) : OperandShape.Statement (.jne r) := ⟨rfl, by simp [Instr.registerOperands, Instr.operandBytes]⟩
theorem OperandShape.jlt (r : Byte) : OperandShape.Statement (.jlt r) := ⟨rfl, by simp [Instr.registerOperands, Instr.operandBytes]⟩
theorem OperandShape.jgt (r : Byte) : OperandShape.Statement (.jgt r) := ⟨rfl, by simp [Instr.registerOperands, Instr.operandBytes]⟩
theorem OperandShape.not (r : Byte) : OperandShape.Statement (.not r) := ⟨rfl, by simp [Instr.registerOperands, Instr.operandBytes]⟩
theorem OperandShape.inc (r : Byte) : OperandShape.Statement (.inc r) := ⟨rfl, by simp [Instr.registerOperands, Instr.operandBytes]⟩
theorem OperandShape.dec (r : Byte) : OperandShape.Statement (.dec r) := ⟨rfl, by simp [Instr.registerOperands, Instr.operandBytes]⟩
theorem OperandShape.ld (ra rb : Byte) : OperandShape.Statement (.ld ra rb) := ⟨rfl, by simp [Instr.registerOperands, Instr.operandBytes]⟩
theorem OperandShape.ldi (r imm : Byte) : OperandShape.Statement (.ldi r imm) := ⟨rfl, by simp [Instr.registerOperands, Instr.operandBytes]⟩
theorem OperandShape.st (ra rb : Byte) : OperandShape.Statement (.st ra rb) := ⟨rfl, by simp [Instr.registerOperands, Instr.operandBytes]⟩
theorem OperandShape.cmp (ra rb : Byte) : OperandShape.Statement (.cmp ra rb) := ⟨rfl, by simp [Instr.registerOperands, Instr.operandBytes]⟩
theorem OperandShape.add (ra rb : Byte) : OperandShape.Statement (.add ra rb) := ⟨rfl, by simp [Instr.registerOperands, Instr.operandBytes]⟩
theorem OperandShape.sub (ra rb : Byte) : OperandShape.Statement (.sub ra rb) := ⟨rfl, by simp [Instr.registerOperands, Instr.operandBytes]⟩
theorem OperandShape.mul (ra rb : Byte) : OperandShape.Statement (.mul ra rb) := ⟨rfl, by simp [Instr.registerOperands, Instr.operandBytes]⟩
theorem OperandShape.div (ra rb : Byte) : OperandShape.Statement (.div ra rb) := ⟨rfl, by simp [Instr.registerOperands, Instr.operandBytes]⟩
theorem OperandShape.mod (ra rb : Byte) : OperandShape.Statement (.mod ra rb) := ⟨rfl, by simp [Instr.registerOperands, Instr.operandBytes]⟩
theorem OperandShape.or (ra rb : Byte) : OperandShape.Statement (.or ra rb) := ⟨rfl, by simp [Instr.registerOperands, Instr.operandBytes]⟩
theorem OperandShape.xor (ra rb : Byte) : OperandShape.Statement (.xor ra rb) := ⟨rfl, by simp [Instr.registerOperands, Instr.operandBytes]⟩
theorem OperandShape.and (ra rb : Byte) : OperandShape.Statement (.and ra rb) := ⟨rfl, by simp [Instr.registerOperands, Instr.operandBytes]⟩
theorem OperandShape.shl (ra rb : Byte) : OperandShape.Statement (.shl ra rb) := ⟨rfl, by simp [Instr.registerOperands, Instr.operandBytes]⟩
theorem OperandShape.shr (ra rb : Byte) : OperandShape.Statement (.shr ra rb) := ⟨rfl, by simp [Instr.registerOperands, Instr.operandBytes]⟩

end Sys2Proof.Laws
end

