-- ==== Sys2Proof/Laws/Step.lean ====
section
/-! SUPPORT. What fetching and ticking do, under every opcode map that meets R77: the bytes at PC, the three
results of a fetch (R102 to R104), and the four cases of a tick (R100, R101). -/

namespace Sys2Proof.Machine

theorem streamBytes_three {s : State} (h : s.pc.toNat + 2 ≤ 255) :
    streamBytes s = [s.memRead s.pc, s.memRead (s.pc + 1), s.memRead (s.pc + 2)] := by
  have h0 : s.pc.toNat < 256 := s.pc.isLt
  have h1 : s.pc.toNat + 1 < 256 := by omega
  have h2 : s.pc.toNat + 2 < 256 := by omega
  simp [streamBytes, Config.memSize, List.takeWhile, h0, h1, h2, State.memRead,
    Nat.mod_eq_of_lt h1, Nat.mod_eq_of_lt h2]

theorem streamBytes_two {s : State} (h : s.pc.toNat = 254) :
    streamBytes s = [s.memRead s.pc, s.memRead (s.pc + 1)] := by
  simp [streamBytes, Config.memSize, List.takeWhile, h, State.memRead]

theorem streamBytes_one {s : State} (h : s.pc.toNat = 255) : streamBytes s = [s.memRead s.pc] := by
  simp [streamBytes, Config.memSize, List.takeWhile, h, State.memRead]

/-- The opcode byte is always there (R102). -/
theorem streamBytes_head (s : State) : ∃ rest, streamBytes s = s.memRead s.pc :: rest := by
  have := s.pc.isLt
  rcases (by omega : s.pc.toNat + 2 ≤ 255 ∨ s.pc.toNat = 254 ∨ s.pc.toNat = 255) with h | h | h
  · exact ⟨_, streamBytes_three h⟩
  · exact ⟨_, streamBytes_two h⟩
  · exact ⟨_, streamBytes_one h⟩

/-- An unassigned opcode byte: InvalidOpcode (R103). -/
theorem fetchInstr_unassigned {map : OpcodeMap} {s : State} (h : map.lookup (s.memRead s.pc) = none) :
    fetchInstr map s = .error (.invalidOpcode (s.memRead s.pc)) := by
  obtain ⟨rest, hr⟩ := streamBytes_head s
  simp [fetchInstr, hr, decodeWith, h, fetchException]

/-- An assigned opcode whose operand bytes all exist: the instruction (R104). -/
theorem fetchInstr_fits {map : OpcodeMap} (hv : map.Valid) {s : State} {m : Mnemonic}
    (hm : s.memRead s.pc = map m) (h : s.pc.toNat + m.format.operandCount ≤ 255) :
    fetchInstr map s = .ok (m.build (s.memRead (s.pc + 1)) (s.memRead (s.pc + 2))) := by
  have hlt := s.pc.isLt
  rcases (by omega : s.pc.toNat + 2 ≤ 255 ∨ s.pc.toNat = 254 ∨ s.pc.toNat = 255) with hp | hp | hp
  · simp only [fetchInstr, streamBytes_three hp, hm, decodeWith, hv.lookup, hv.count]
    cases m <;> rfl
  · simp only [fetchInstr, streamBytes_two hp, hm, decodeWith, hv.lookup, hv.count]
    rw [hp] at h
    cases m <;> first | rfl | simp [Mnemonic.format, Format.operandCount] at h
  · simp only [fetchInstr, streamBytes_one hp, hm, decodeWith, hv.lookup, hv.count]
    rw [hp] at h
    cases m <;> first | rfl | simp [Mnemonic.format, Format.operandCount] at h

/-- An assigned opcode with an operand byte past 255: MemoryOutOfRange(256) (R104). -/
theorem fetchInstr_overflows {map : OpcodeMap} (hv : map.Valid) {s : State} {m : Mnemonic}
    (hm : s.memRead s.pc = map m) (h : 255 < s.pc.toNat + m.format.operandCount) :
    fetchInstr map s = .error (.memoryOutOfRange 256) := by
  have hlt := s.pc.isLt
  have hc := m.format.operandCount_le
  rcases (by omega : s.pc.toNat = 254 ∨ s.pc.toNat = 255) with hp | hp
  · have hpc : s.pc = 254 := BitVec.eq_of_toNat_eq hp
    simp only [fetchInstr, streamBytes_two hp, hm, decodeWith, hv.lookup, hv.count]
    rw [hp] at h
    cases m <;> first | (rw [hpc]; rfl) | simp [Mnemonic.format, Format.operandCount] at h
  · have hpc : s.pc = 255 := BitVec.eq_of_toNat_eq hp
    simp only [fetchInstr, streamBytes_one hp, hm, decodeWith, hv.lookup, hv.count]
    rw [hp] at h
    cases m <;> first | (rw [hpc]; rfl) | simp [Mnemonic.format, Format.operandCount] at h

theorem tick_stopped (map : OpcodeMap) {s : State} (h : s.run ≠ .running) : tick map s = .next s := by
  rw [tick]; cases hr : s.run <;> simp_all

theorem tick_fetched {map : OpcodeMap} {s : State} {i : Instr} (h : s.run = .running)
    (hf : fetchInstr map s = .ok i) : tick map s = exec i s := by rw [tick, h, hf]

theorem tick_fetch_fault {map : OpcodeMap} {s : State} {e : Exception} (h : s.run = .running)
    (hf : fetchInstr map s = .error e) : tick map s = .next (takeException e s) := by rw [tick, h, hf]

/-- Everything a tick can do, under every opcode map that meets R77. -/
theorem tick_cases {map : OpcodeMap} (hv : map.Valid) (s : State) :
    (s.run ≠ .running ∧ tick map s = .next s) ∨
    (s.run = .running ∧ map.lookup (s.memRead s.pc) = none ∧
      tick map s = .next (takeException (.invalidOpcode (s.memRead s.pc)) s)) ∨
    (∃ m, s.run = .running ∧ s.memRead s.pc = map m ∧ 255 < s.pc.toNat + m.format.operandCount ∧
      tick map s = .next (takeException (.memoryOutOfRange 256) s)) ∨
    (∃ m, s.run = .running ∧ s.memRead s.pc = map m ∧ s.pc.toNat + m.format.operandCount ≤ 255 ∧
      tick map s = exec (m.build (s.memRead (s.pc + 1)) (s.memRead (s.pc + 2))) s) := by
  by_cases hr : s.run = .running
  · cases hl : map.lookup (s.memRead s.pc) with
    | none => exact .inr (.inl ⟨hr, rfl, tick_fetch_fault hr (fetchInstr_unassigned hl)⟩)
    | some m =>
      have hm := (OpcodeMap.lookup_sound hl).symm
      by_cases h : s.pc.toNat + m.format.operandCount ≤ 255
      · exact .inr (.inr (.inr ⟨m, hr, hm, h, tick_fetched hr (fetchInstr_fits hv hm h)⟩))
      · exact .inr (.inr (.inl ⟨m, hr, hm, by omega,
          tick_fetch_fault hr (fetchInstr_overflows hv hm (by omega))⟩))
  · exact .inl ⟨hr, tick_stopped map hr⟩

theorem step_eq_tick (s : State) : step s = tick opcodeMap s := rfl

theorem step_stopped {s : State} (h : s.run ≠ .running) : step s = .next s := tick_stopped opcodeMap h

theorem step_fetched {s : State} {i : Instr} (h : s.run = .running)
    (hf : fetchInstr opcodeMap s = .ok i) : step s = exec i s := tick_fetched h hf

theorem step_fetch_fault {s : State} {e : Exception} (h : s.run = .running)
    (hf : fetchInstr opcodeMap s = .error e) : step s = .next (takeException e s) :=
  tick_fetch_fault h hf

/-- Everything a step can do. -/
theorem step_cases (s : State) :
    (s.run ≠ .running ∧ step s = .next s) ∨
    (s.run = .running ∧ opcodeMap.lookup (s.memRead s.pc) = none ∧
      step s = .next (takeException (.invalidOpcode (s.memRead s.pc)) s)) ∨
    (∃ m, s.run = .running ∧ s.memRead s.pc = opcodeMap m ∧
      255 < s.pc.toNat + m.format.operandCount ∧
      step s = .next (takeException (.memoryOutOfRange 256) s)) ∨
    (∃ m, s.run = .running ∧ s.memRead s.pc = opcodeMap m ∧
      s.pc.toNat + m.format.operandCount ≤ 255 ∧
      step s = exec (m.build (s.memRead (s.pc + 1)) (s.memRead (s.pc + 2))) s) :=
  tick_cases opcodeMap_valid s

/-- The core is the machine of the default parameters. -/
theorem core_eq_machineOf :
    Sys2Proof.core = machineOf opcodeMap Config.entryPc Config.regReset [] := rfl

theorem reset_mem_wf : State.reset.mem.wf := Memory.nil_wf

/-- Storing bytes keeps the canonical form. -/
theorem storeBytes_wf {s : State} (h : s.mem.wf) (a : Nat) (bs : List Byte) :
    (storeBytes s a bs).mem.wf := by
  induction bs generalizing s a with
  | nil => exact h
  | cons b bs ih =>
    rw [storeBytes]; split
    · next ha => exact ih (Memory.write_wf h ha b) (a + 1)
    · exact h

theorem withFetchWord_wf {s : State} (h : s.mem.wf) (nbits w : Nat) :
    (s.withFetchWord nbits w).mem.wf :=
  storeBytes_wf (s := { s with run := .running }) h _ _

theorem run_succ (M : Host.Core) {s t : M.State} (k : Nat) (h : M.step s = .next t) :
    M.run (k + 1) s = M.run k t := by
  simp only [Host.Core.run, h]

/-- A run of `k + 1` ticks is a step and then a run of `k`. -/
theorem run_next {s t : State} (k : Nat) (h : step s = .next t) :
    Sys2Proof.core.run (k + 1) s = Sys2Proof.core.run k t :=
  run_succ Sys2Proof.core k h

/-- The same of the machine under any parameters. -/
theorem machineOf_run_next {map : OpcodeMap} {entry : Byte} {regs : Vector Byte 8} {image : Memory}
    {s t : State} (k : Nat) (h : tick map s = .next t) :
    (machineOf map entry regs image).run (k + 1) s = (machineOf map entry regs image).run k t :=
  run_succ (machineOf map entry regs image) k h

end Sys2Proof.Machine
end

