-- ==== Sys2Proof/Tests/Slice0.lean ====
section
/-! SUPPORT. Tests of one step each, whose results are the vectors of 95_test_vectors (T for CA1's own,
V for the spec's); the words of 30_encoding R76 decoded; and, for each obligation with hypotheses,
states and operands that meet them. -/

namespace Sys2Proof.Tests

open Sys2Proof.Machine Sys2Proof.Claims

/-- The start state of 95_test_vectors: the default reset state with `bytes` at `pc`, and some
registers and memory bytes set. -/
def startAt (pc : Byte) (bytes : List Byte) (regs : List (Fin 8 × Byte) := [])
    (mem : List (Byte × Byte) := []) (fl : Byte := 0) : State :=
  let s := storeBytes { State.reset with pc := pc, fl := fl } pc.toNat bytes
  let s := mem.foldl (fun s c => s.memWrite c.1 c.2) s
  regs.foldl (fun s c => s.setReg c.1 c.2) s

/-- One step answers a next state of which `p` holds. -/
def stepsTo (s : State) (p : State → Bool) : Bool :=
  match step s with
  | .next t => p t
  | .fault _ => false
  | .refused _ => false

/-- The state is in ERROR_HALTED at `pc` with that record. -/
def faulted (t : State) (cause : Cause) (pc : Byte) (info : BitVec 9) : Bool :=
  t.run == .errorHalted && t.err == ⟨cause, pc, info⟩ && t.pc == pc

/-- The bytes decode, whole, to the instruction. -/
def decodesTo (bytes : List Byte) (i : Instr) : Bool :=
  match decode bytes with
  | .ok (j, rest) => i == j && rest == []
  | .error _ => false

/-! ## Well-formedness (R74): one ill-formed term for each operand that is checked -/

theorem test_wellFormed_rejects_bad_r : (Instr.prn 8).wellFormed = false := by decide
theorem test_wellFormed_rejects_bad_r_of_ldi : (Instr.ldi 8 0).wellFormed = false := by decide
theorem test_wellFormed_rejects_bad_ra : (Instr.add 255 0).wellFormed = false := by decide
theorem test_wellFormed_rejects_bad_rb : (Instr.add 0 8).wellFormed = false := by decide
theorem test_wellFormed_accepts_bounds : (Instr.st 7 7).wellFormed = true := by decide
theorem test_wellFormed_accepts_any_immediate : (Instr.ldi 7 255).wellFormed = true := by decide

/-! ## Decoding: the words of R76 and R72, written out -/

theorem test_decode_nop : decodesTo [0b00000000] .nop = true := by decide
theorem test_decode_hlt : decodesTo [0b00000001] .hlt = true := by decide
theorem test_decode_ret : decodesTo [0b00001001] .ret = true := by decide
theorem test_decode_iret : decodesTo [0b00001011] .iret = true := by decide
theorem test_decode_pra : decodesTo [0b01000010, 0x05] (.pra 0x05) = true := by decide
theorem test_decode_prn : decodesTo [0b01000011, 0x05] (.prn 0x05) = true := by decide
theorem test_decode_call : decodesTo [0b01001000, 0x05] (.call 0x05) = true := by decide
theorem test_decode_int : decodesTo [0b01001010, 0x05] (.int 0x05) = true := by decide
theorem test_decode_pop : decodesTo [0b01001100, 0x05] (.pop 0x05) = true := by decide
theorem test_decode_push : decodesTo [0b01001101, 0x05] (.push 0x05) = true := by decide
theorem test_decode_jmp : decodesTo [0b01010000, 0x05] (.jmp 0x05) = true := by decide
theorem test_decode_jeq : decodesTo [0b01010001, 0x05] (.jeq 0x05) = true := by decide
theorem test_decode_jne : decodesTo [0b01010010, 0x05] (.jne 0x05) = true := by decide
theorem test_decode_jlt : decodesTo [0b01010011, 0x05] (.jlt 0x05) = true := by decide
theorem test_decode_jgt : decodesTo [0b01010100, 0x05] (.jgt 0x05) = true := by decide
theorem test_decode_not : decodesTo [0b01110000, 0x05] (.not 0x05) = true := by decide
theorem test_decode_inc : decodesTo [0b01111000, 0x05] (.inc 0x05) = true := by decide
theorem test_decode_dec : decodesTo [0b01111001, 0x05] (.dec 0x05) = true := by decide
theorem test_decode_ld : decodesTo [0b10011000, 0x05, 0x02] (.ld 0x05 0x02) = true := by decide
theorem test_decode_ldi : decodesTo [0b10011001, 0x05, 0x02] (.ldi 0x05 0x02) = true := by decide
theorem test_decode_st : decodesTo [0b10011010, 0x05, 0x02] (.st 0x05 0x02) = true := by decide
theorem test_decode_cmp : decodesTo [0b10100000, 0x05, 0x02] (.cmp 0x05 0x02) = true := by decide
theorem test_decode_add : decodesTo [0b10101000, 0x05, 0x02] (.add 0x05 0x02) = true := by decide
theorem test_decode_sub : decodesTo [0b10101001, 0x05, 0x02] (.sub 0x05 0x02) = true := by decide
theorem test_decode_mul : decodesTo [0b10101010, 0x05, 0x02] (.mul 0x05 0x02) = true := by decide
theorem test_decode_div : decodesTo [0b10101011, 0x05, 0x02] (.div 0x05 0x02) = true := by decide
theorem test_decode_mod : decodesTo [0b10101100, 0x05, 0x02] (.mod 0x05 0x02) = true := by decide
theorem test_decode_or : decodesTo [0b10110001, 0x05, 0x02] (.or 0x05 0x02) = true := by decide
theorem test_decode_xor : decodesTo [0b10110010, 0x05, 0x02] (.xor 0x05 0x02) = true := by decide
theorem test_decode_and : decodesTo [0b10110011, 0x05, 0x02] (.and 0x05 0x02) = true := by decide
theorem test_decode_shl : decodesTo [0b10110100, 0x05, 0x02] (.shl 0x05 0x02) = true := by decide
theorem test_decode_shr : decodesTo [0b10110101, 0x05, 0x02] (.shr 0x05 0x02) = true := by decide

/-- The table word of `ADD R5, R2`: opcode in bits 7..0, operands above. -/
theorem test_table_word : decodeTableWord 24 0x0205A8 = some (.add 5 2) := by decide
theorem test_table_word_short : decodeTableWord 8 0xFFFF43 = some (.prn 0) := by decide
theorem test_table_word_unassigned : decodeTableWord 24 0x0000FF = none := by decide
theorem test_fetch_word_runs_first : stepsTo (State.reset.withFetchWord 24 0x080099)
    (fun t => t.reg 0 == 8 && t.pc == 3 && t.run == .running) = true := by decide

/-! ## One step of each instruction -/

theorem test_ldi_V2 : stepsTo (startAt 0x10 [0x99, 0x07, 0x80])
    (fun t => t.reg 7 == 0x80 && t.pc == 0x13) = true := by decide
theorem test_ldi_V4_bad_index : stepsTo (startAt 0x10 [0x99, 0x08, 0x01])
    (fun t => faulted t .registerIndexOutOfRange 0x10 8 && t.regs == State.reset.regs) = true := by decide
theorem test_ld_V6_same_register : stepsTo (startAt 0x10 [0x98, 0x01, 0x01] (regs := [(1, 0x20)]) (mem := [(0x20, 0x7B)]))
    (fun t => t.reg 1 == 0x7B && t.pc == 0x13) = true := by decide
theorem test_ld_V7_own_opcode : stepsTo (startAt 0x10 [0x98, 0x00, 0x01] (regs := [(1, 0x10)]))
    (fun t => t.reg 0 == 0x98 && t.pc == 0x13) = true := by decide
theorem test_st_V8 : stepsTo (startAt 0x10 [0x9A, 0x00, 0x01] (regs := [(0, 0x80), (1, 0x2A)]))
    (fun t => t.memRead 0x80 == 0x2A && t.memRead 0x2A == 0 && t.pc == 0x13) = true := by decide
theorem test_st_V10_bad_index : stepsTo (startAt 0x10 [0x9A, 0x00, 0x09] (regs := [(0, 0x80)]))
    (fun t => faulted t .registerIndexOutOfRange 0x10 9 && t.memRead 0x80 == 0) = true := by decide
theorem test_prn_V11 : stepsTo (startAt 0x10 [0x43, 0x00] (regs := [(0, 0xFF)]))
    (fun t => t.out == [⟨.num, 255⟩] && t.pc == 0x12) = true := by decide
theorem test_pra_V13 : stepsTo (startAt 0x10 [0x42, 0x02] (regs := [(2, 0x48)]))
    (fun t => t.out == [⟨.chr, 0x48⟩] && t.pc == 0x12) = true := by decide
theorem test_pra_V14_bad_index : stepsTo (startAt 0x10 [0x42, 0x0A])
    (fun t => faulted t .registerIndexOutOfRange 0x10 10 && t.out == []) = true := by decide
theorem test_add_V23 : stepsTo (startAt 0x10 [0xA8, 0x00, 0x01] (regs := [(0, 200), (1, 100)]) (fl := 2))
    (fun t => t.reg 0 == 44 && t.reg 1 == 100 && t.pc == 0x13 && t.fl == 2) = true := by decide
theorem test_add_V24_same_register : stepsTo (startAt 0x10 [0xA8, 0x00, 0x00] (regs := [(0, 0x80)]))
    (fun t => t.reg 0 == 0 && t.pc == 0x13) = true := by decide
theorem test_sub_V25 : stepsTo (startAt 0x10 [0xA9, 0x00, 0x01] (regs := [(0, 10), (1, 3)]) (fl := 2))
    (fun t => t.reg 0 == 7 && t.reg 1 == 3 && t.pc == 0x13 && t.fl == 2) = true := by decide
theorem test_sub_V26 : stepsTo (startAt 0x10 [0xA9, 0x00, 0x01] (regs := [(0, 0x00), (1, 0x01)]) (fl := 2))
    (fun t => t.reg 0 == 0xFF && t.reg 1 == 0x01 && t.pc == 0x13 && t.fl == 2) = true := by decide
theorem test_mul_V29 : stepsTo (startAt 0x10 [0xAA, 0x00, 0x01] (regs := [(0, 8), (1, 9)]) (fl := 2))
    (fun t => t.reg 0 == 72 && t.reg 1 == 9 && t.pc == 0x13 && t.fl == 2) = true := by decide
theorem test_mul_V31 : stepsTo (startAt 0x10 [0xAA, 0x00, 0x01] (regs := [(0, 0xFF), (1, 0xFF)]) (fl := 2))
    (fun t => t.reg 0 == 0x01 && t.reg 1 == 0xFF && t.pc == 0x13 && t.fl == 2) = true := by decide
theorem test_div_V34 : stepsTo (startAt 0x10 [0xAB, 0x00, 0x01] (regs := [(0, 100), (1, 7)]) (fl := 2))
    (fun t => t.reg 0 == 14 && t.reg 1 == 7 && t.pc == 0x13 && t.fl == 2) = true := by decide
theorem test_div_V39_by_zero : stepsTo (startAt 0x10 [0xAB, 0x00, 0x01] (regs := [(0, 10)]))
    (fun t => faulted t .divisionByZero 0x10 0xAB && t.reg 0 == 10) = true := by decide
theorem test_mod_V44 : stepsTo (startAt 0x10 [0xAC, 0x00, 0x01] (regs := [(0, 255), (1, 16)]) (fl := 2))
    (fun t => t.reg 0 == 15 && t.reg 1 == 16 && t.pc == 0x13 && t.fl == 2) = true := by decide
theorem test_mod_V46_by_zero : stepsTo (startAt 0x10 [0xAC, 0x00, 0x01] (regs := [(0, 10)]))
    (fun t => faulted t .moduloByZero 0x10 0xAC && t.reg 0 == 10) = true := by decide
theorem test_div_V47_index_before_zero : stepsTo (startAt 0x10 [0xAB, 0x08, 0x01])
    (fun t => faulted t .registerIndexOutOfRange 0x10 8) = true := by decide
theorem test_inc_V50 : stepsTo (startAt 0x10 [0x78, 0x03] (regs := [(3, 41)]))
    (fun t => t.reg 3 == 42 && t.pc == 0x12) = true := by decide
theorem test_inc_V51 : stepsTo (startAt 0x10 [0x78, 0x03] (regs := [(3, 0xFF)]))
    (fun t => t.reg 3 == 0x00 && t.pc == 0x12) = true := by decide
theorem test_dec_V52 : stepsTo (startAt 0x10 [0x79, 0x03] (regs := [(3, 1)]))
    (fun t => t.reg 3 == 0 && t.pc == 0x12) = true := by decide
theorem test_dec_V53 : stepsTo (startAt 0x10 [0x79, 0x03] (regs := [(3, 0x00)]))
    (fun t => t.reg 3 == 0xFF && t.pc == 0x12) = true := by decide
theorem test_and_V60 : stepsTo (startAt 0x10 [0xB3, 0x00, 0x01] (regs := [(0, 0xCC), (1, 0xAA)]) (fl := 2))
    (fun t => t.reg 0 == 0x88 && t.reg 1 == 0xAA && t.pc == 0x13 && t.fl == 2) = true := by decide
theorem test_or_V62 : stepsTo (startAt 0x10 [0xB1, 0x00, 0x01] (regs := [(0, 0xCC), (1, 0xAA)]) (fl := 2))
    (fun t => t.reg 0 == 0xEE && t.reg 1 == 0xAA && t.pc == 0x13 && t.fl == 2) = true := by decide
theorem test_xor_V64 : stepsTo (startAt 0x10 [0xB2, 0x00, 0x01] (regs := [(0, 0xCC), (1, 0xAA)]) (fl := 2))
    (fun t => t.reg 0 == 0x66 && t.reg 1 == 0xAA && t.pc == 0x13 && t.fl == 2) = true := by decide
theorem test_not_V66 : stepsTo (startAt 0x10 [0x70, 0x00] (regs := [(0, 0x0F)]))
    (fun t => t.reg 0 == 0xF0 && t.pc == 0x12) = true := by decide
theorem test_shl_V69 : stepsTo (startAt 0x10 [0xB4, 0x00, 0x01] (regs := [(0, 0x81), (1, 1)]) (fl := 2))
    (fun t => t.reg 0 == 0x02 && t.reg 1 == 1 && t.pc == 0x13 && t.fl == 2) = true := by decide
theorem test_shl_V71 : stepsTo (startAt 0x10 [0xB4, 0x00, 0x01] (regs := [(0, 0xFF), (1, 8)]) (fl := 2))
    (fun t => t.reg 0 == 0x00 && t.reg 1 == 8 && t.pc == 0x13 && t.fl == 2) = true := by decide
theorem test_shr_V75 : stepsTo (startAt 0x10 [0xB5, 0x00, 0x01] (regs := [(0, 0x80), (1, 7)]) (fl := 2))
    (fun t => t.reg 0 == 0x01 && t.reg 1 == 7 && t.pc == 0x13 && t.fl == 2) = true := by decide
theorem test_shr_V77 : stepsTo (startAt 0x10 [0xB5, 0x00, 0x01] (regs := [(0, 0xFF), (1, 32)]) (fl := 2))
    (fun t => t.reg 0 == 0x00 && t.reg 1 == 32 && t.pc == 0x13 && t.fl == 2) = true := by decide
theorem test_cmp_V81_unsigned : stepsTo (startAt 0x10 [0xA0, 0x00, 0x01] (regs := [(0, 0xFF), (1, 0x01)]))
    (fun t => t.fl == 0b010 && t.reg 0 == 0xFF && t.pc == 0x13) = true := by decide
theorem test_cmp_V84_replaces : stepsTo (startAt 0x10 [0xA0, 0x00, 0x01] (regs := [(0, 1), (1, 2)]) (fl := 0b010))
    (fun t => t.fl == 0b100) = true := by decide
theorem test_jmp_V99_to_itself : stepsTo (startAt 0x10 [0x50, 0x02] (regs := [(2, 0x10)]))
    (fun t => t.pc == 0x10 && t.run == .running) = true := by decide
theorem test_jeq_V91 : stepsTo (startAt 0x10 [0x51, 0x02] (regs := [(2, 0x40)]) (fl := 0b001))
    (fun t => t.pc == 0x40 && t.fl == 0b001) = true := by decide
theorem test_jeq_V100_bad_index : stepsTo (startAt 0x10 [0x51, 0x09] (fl := 0b100))
    (fun t => faulted t .registerIndexOutOfRange 0x10 9) = true := by decide
theorem test_jne_V93 : stepsTo (startAt 0x10 [0x52, 0x02] (regs := [(2, 0x40)]) (fl := 0b010))
    (fun t => t.pc == 0x40) = true := by decide
theorem test_jne_V94 : stepsTo (startAt 0x10 [0x52, 0x02] (regs := [(2, 0x40)]) (fl := 0b001))
    (fun t => t.pc == 0x12) = true := by decide
theorem test_jgt_V95 : stepsTo (startAt 0x10 [0x54, 0x02] (regs := [(2, 0x40)]) (fl := 0b010))
    (fun t => t.pc == 0x40) = true := by decide
theorem test_jgt_V96 : stepsTo (startAt 0x10 [0x54, 0x02] (regs := [(2, 0x40)]) (fl := 0b100))
    (fun t => t.pc == 0x12) = true := by decide
theorem test_jlt_V97 : stepsTo (startAt 0x10 [0x53, 0x02] (regs := [(2, 0x40)]) (fl := 0b100))
    (fun t => t.pc == 0x40) = true := by decide
theorem test_jlt_V98 : stepsTo (startAt 0x10 [0x53, 0x02] (regs := [(2, 0x40)]) (fl := 0b010))
    (fun t => t.pc == 0x12) = true := by decide
theorem test_push_V111_r7 : stepsTo (startAt 0x10 [0x4D, 0x07])
    (fun t => t.reg 7 == 0xF3 && t.memRead 0xF3 == 0xF3) = true := by decide
theorem test_push_V112_wraps : stepsTo (startAt 0x10 [0x4D, 0x00] (regs := [(0, 0xAB), (7, 0x00)]))
    (fun t => t.reg 7 == 0xFF && t.memRead 0xFF == 0xAB && t.pc == 0x12) = true := by decide
theorem test_pop_V113 : stepsTo (startAt 0x10 [0x4C, 0x01] (regs := [(7, 0xF3)]) (mem := [(0xF3, 0x2A)]))
    (fun t => t.reg 1 == 0x2A && t.reg 7 == 0xF4 && t.memRead 0xF3 == 0x2A && t.pc == 0x12) = true := by decide
theorem test_pop_V114_r7 : stepsTo (startAt 0x10 [0x4C, 0x07] (regs := [(7, 0xF3)]) (mem := [(0xF3, 0x50)]))
    (fun t => t.reg 7 == 0x51) = true := by decide
theorem test_call_V116 : stepsTo (startAt 0x10 [0x48, 0x01] (regs := [(1, 0x20)]))
    (fun t => t.reg 7 == 0xF3 && t.memRead 0xF3 == 0x12 && t.pc == 0x20) = true := by decide
theorem test_call_V118_at_254 : stepsTo (startAt 0xFE [0x48, 0x00] (regs := [(0, 0x20)]))
    (fun t => faulted t .memoryOutOfRange 0xFE 256 && t.reg 7 == 0xF4 && t.memRead 0xF3 == 0) = true := by decide
theorem test_ret_V117 : stepsTo (startAt 0x10 [0x09] (regs := [(7, 0xF3)]) (mem := [(0xF3, 0x12)]))
    (fun t => t.pc == 0x12 && t.reg 7 == 0xF4) = true := by decide
theorem test_ret_V142_at_255 : stepsTo (startAt 0xFF [0x09] (regs := [(7, 0xF3)]) (mem := [(0xF3, 0x08)]))
    (fun t => t.pc == 0x08 && t.reg 7 == 0xF4 && t.run == .running) = true := by decide
theorem test_nop_V120 : stepsTo (startAt 0x10 [0x00])
    (fun t => t == { startAt 0x10 [0x00] with pc := 0x11 }) = true := by decide
theorem test_nop_V135_at_255 : stepsTo (startAt 0xFF [0x00])
    (fun t => faulted t .memoryOutOfRange 0xFF 256) = true := by decide
theorem test_hlt_V121 : stepsTo (startAt 0x10 [0x01])
    (fun t => t == { startAt 0x10 [0x01] with run := .halted }) = true := by decide
theorem test_hlt_V134_at_255 : stepsTo (startAt 0xFF [0x01])
    (fun t => t.run == .halted && t.pc == 0xFF && t.err == ErrorRecord.clear) = true := by decide
theorem test_int_V122 : stepsTo (startAt 0x10 [0x4A, 0x00])
    (fun t => faulted t .unimplementedInstruction 0x10 0x4A) = true := by decide
theorem test_int_bad_index_unchecked : stepsTo (startAt 0x10 [0x4A, 0xFF])
    (fun t => faulted t .unimplementedInstruction 0x10 0x4A) = true := by decide
theorem test_iret_V123 : stepsTo (startAt 0x10 [0x0B])
    (fun t => faulted t .unimplementedInstruction 0x10 0x0B) = true := by decide

/-! ## Decode and the top of memory (V124 to V143) -/

theorem test_V124_halted : stepsTo ({ startAt 0x10 [0x99, 0, 8] with run := .halted })
    (fun t => t == { startAt 0x10 [0x99, 0, 8] with run := .halted }) = true := by decide
theorem test_V131_count_3 : stepsTo (startAt 0x00 [0xC3])
    (fun t => faulted t .invalidOpcode 0 0xC3) = true := by decide
theorem test_V133_other_numbering : stepsTo (startAt 0x00 [0xA1, 0, 1])
    (fun t => faulted t .invalidOpcode 0 0xA1) = true := by decide
theorem test_V136_decode_first : stepsTo (startAt 0xFF [0xC3])
    (fun t => faulted t .invalidOpcode 0xFF 0xC3) = true := by decide
theorem test_V137_operand_a : stepsTo (startAt 0xFF [0x43])
    (fun t => faulted t .memoryOutOfRange 0xFF 256 && t.out == []) = true := by decide
theorem test_V138_operand_b : stepsTo (startAt 0xFE [0x99, 0x00])
    (fun t => faulted t .memoryOutOfRange 0xFE 256 && t.reg 0 == 0) = true := by decide
theorem test_V139_advance_after_effect : stepsTo (startAt 0xFD [0x99, 0x00, 0x07])
    (fun t => faulted t .memoryOutOfRange 0xFD 256 && t.reg 0 == 7) = true := by decide
theorem test_V140_advance_after_output : stepsTo (startAt 0xFE [0x43, 0x02] (regs := [(2, 5)]))
    (fun t => faulted t .memoryOutOfRange 0xFE 256 && t.out == [⟨.num, 5⟩]) = true := by decide
theorem test_V141_jump_at_254 : stepsTo (startAt 0xFE [0x50, 0x00] (regs := [(0, 0x10)]))
    (fun t => t.pc == 0x10 && t.run == .running) = true := by decide
theorem test_V143_operand_a_reported : stepsTo (startAt 0x00 [0xA8, 0x09, 0x0A])
    (fun t => faulted t .registerIndexOutOfRange 0 9) = true := by decide

/-! ## Memory -/

theorem test_memory_write_unlisted_value_removes :
    (((State.reset.memWrite 5 7).memWrite 3 1).memWrite 5 0).mem = [(3, 1)] := by decide
theorem test_memory_wf_refuses_unsorted : ¬ Memory.wf [(5, 1), (3, 1)] := by decide
theorem test_memory_wf_refuses_repeat : ¬ Memory.wf [(5, 1), (5, 2)] := by decide
theorem test_memory_wf_refuses_unlisted_value : ¬ Memory.wf [(5, 0)] := by decide
theorem test_memory_wf_refuses_address_256 : ¬ Memory.wf [(256, 1)] := by decide

/-! ## Witnesses: the hypotheses of the obligations are met

A witness names concrete states and operands; the bounds of each clause's range are among them. -/

/-- The index checks of every rule: 0, 7 are legal; 8, 255 are not; B is checked when A is legal. -/
theorem witness_index_clauses :
    (0 : Byte).toNat < 8 ∧ (7 : Byte).toNat < 8 ∧ 8 ≤ (8 : Byte).toNat ∧ 8 ≤ (255 : Byte).toNat := by
  decide

/-- Both clauses of `FellThrough` for each length, at the last address of the first and the only one
of the second. -/
theorem witness_FellThrough :
    ((startAt 254 []).pc.toNat + 1 ≤ 255 ∧ (startAt 255 []).pc.toNat + 1 = 256) ∧
    ((startAt 253 []).pc.toNat + 2 ≤ 255 ∧ (startAt 254 []).pc.toNat + 2 = 256) ∧
    ((startAt 252 []).pc.toNat + 3 ≤ 255 ∧ (startAt 253 []).pc.toNat + 3 = 256) := by decide

/-- Reset out of ERROR_HALTED; the statement has no hypothesis. -/
theorem witness_ResetSetsEveryElementAndKeepsMemory :
    let t := resetPort 0x20 #v[1, 2, 3, 4, 5, 6, 7, 8] { startAt 9 [0xFF] with run := .errorHalted }
    t.run = .running ∧ t.pc = 0x20 ∧ t.reg 7 = 8 ∧ t.memRead 9 = 0xFF := by decide

theorem witness_StepRunsDecodedInstruction :
    (startAt 0x10 [0xA8, 0, 1]).run = .running ∧
      decode (streamBytes (startAt 0x10 [0xA8, 0, 1])) = .ok (.add 0 1, []) ∧
      decode (streamBytes (startAt 0xFF [0x09])) = .ok (.ret, []) := ⟨rfl, rfl, rfl⟩

theorem witness_TickOutsideRunningDoesNothing :
    ({ startAt 0x10 [] with run := .halted }).run ≠ .running ∧
      ({ startAt 0x10 [] with run := .errorHalted }).run ≠ .running := by decide

theorem witness_UnassignedOpcodeRaisesInvalidOpcode :
    ∀ pc ∈ [0x00, 0xFF], (startAt pc [0xC3]).run = .running ∧
      ∀ m ∈ Mnemonic.all, opcodeMap m ≠ (startAt pc [0xC3]).memRead (startAt pc [0xC3]).pc := by decide

/-- Each clause at its bound: the last operand byte at 255, and at 256. -/
theorem witness_OperandFetchTakesExactlyTheCountOrFaults :
    ((startAt 0xFD [0x99, 0, 7]).memRead 0xFD = opcodeMap .ldi ∧
      (startAt 0xFD [0x99, 0, 7]).pc.toNat + operandCount (opcodeMap .ldi) = 255) ∧
    ((startAt 0xFE [0x99, 0]).memRead 0xFE = opcodeMap .ldi ∧
      (startAt 0xFE [0x99, 0]).pc.toNat + operandCount (opcodeMap .ldi) = 256) ∧
    ((startAt 0xFF [0x43]).memRead 0xFF = opcodeMap .prn ∧
      (startAt 0xFF [0x43]).pc.toNat + operandCount (opcodeMap .prn) = 256) := by decide

theorem witness_TracePortShowsPcAndOpcode : (startAt 0x10 [0xFF]).run = .running := by decide

theorem witness_opcodeMap_valid : opcodeMap.Valid := opcodeMap_valid

/-- A second map that meets R77: the other LS-8 numbering, of 93_implementation_defined section 3. -/
def laterMap : OpcodeMap
  | .nop => 0x00 | .hlt => 0x01 | .ret => 0x11 | .iret => 0x13
  | .pra => 0x48 | .prn => 0x47 | .call => 0x50 | .int => 0x52 | .pop => 0x46 | .push => 0x45
  | .jmp => 0x54 | .jeq => 0x55 | .jne => 0x56 | .jlt => 0x58 | .jgt => 0x57
  | .not => 0x69 | .inc => 0x65 | .dec => 0x66
  | .ld => 0x83 | .ldi => 0x82 | .st => 0x84 | .cmp => 0xA7
  | .add => 0xA0 | .sub => 0xA1 | .mul => 0xA2 | .div => 0xA3 | .mod => 0xA4
  | .or => 0xAA | .xor => 0xAB | .and => 0xA8 | .shl => 0xAC | .shr => 0xAD

theorem witness_laterMap_valid : laterMap.Valid where
  injective m m' h := by
    have key : ∀ m, laterMap.lookup (laterMap m) = some m := by intro m; cases m <;> rfl
    exact Option.some.inj ((key m).symm.trans (h ▸ key m'))
  count m := by cases m <;> rfl

/-- One tick under `laterMap` answers a next state of which `p` holds. -/
def laterTicksTo (s : State) (p : State → Bool) : Bool :=
  match tick laterMap s with
  | .next t => p t
  | .fault _ => false
  | .refused _ => false

/-- The program bytes that 93_implementation_defined section 3 shows begin with LDI R0, 8; the default map
does not assign their first byte. -/
theorem test_later_numbering_ldi : laterTicksTo (startAt 0 [0x82, 0x00, 0x08])
    (fun t => t.reg 0 == 8 && t.pc == 3) = true := by decide
theorem test_later_numbering_is_invalid_here : stepsTo (startAt 0 [0x82, 0x00, 0x08])
    (fun t => faulted t .invalidOpcode 0 0x82) = true := by decide
/-- 0xA8 is AND there and ADD here; 0x52 is INT there and JNE here. -/
theorem test_later_numbering_and : laterTicksTo
    (startAt 0x10 [0xA8, 0, 1] (regs := [(0, 0xCC), (1, 0xAA)])) (fun t => t.reg 0 == 0x88) = true := by
  decide
theorem test_later_numbering_int : laterTicksTo (startAt 0x10 [0x52, 0])
    (fun t => faulted t .unimplementedInstruction 0x10 0x52) = true := by decide
theorem test_later_numbering_div_by_zero : laterTicksTo (startAt 0x10 [0xA3, 0, 1])
    (fun t => faulted t .divisionByZero 0x10 0xA3) = true := by decide

theorem witness_DecodeInvertsEncodeForEveryOpcodeMap :
    opcodeMap.Valid ∧ encodeWith opcodeMap (.ldi 3 255) ++ [1] = [0x99, 3, 255, 1] :=
  ⟨witness_opcodeMap_valid, rfl⟩

theorem witness_DecodedBytesAreTheEncoding :
    opcodeMap.Valid ∧ decodeWith opcodeMap [0x4D, 7, 1] = .ok (.push 7, [1]) :=
  ⟨witness_opcodeMap_valid, rfl⟩

theorem witness_UnassignedBytesAreRejected :
    (0xC0 ≤ (0xC0 : Byte).toNat ∧ 0xC0 ≤ (0xFF : Byte).toNat) ∧ opcodeMap.lookup 0x02 = none := by
  decide

/-- LDI, LD, ST, PRN, PRA: legal and illegal operands in states at the bounds of both ends of a tick. -/
theorem witness_LoadImmediateWritesTheByte :
    (7 : Byte).toNat < 8 ∧ 8 ≤ (8 : Byte).toNat ∧ (startAt 252 [0x99, 7]).pc.toNat + 3 = 255 ∧
      (startAt 253 [0x99, 7]).pc.toNat + 3 = 256 := by decide
theorem witness_LoadReadsTheByteAtTheAddressRegister :
    (7 : Byte).toNat < 8 ∧ (0 : Byte).toNat < 8 ∧ 8 ≤ (8 : Byte).toNat ∧
      (startAt 253 [0x98, 7]).pc.toNat + 3 = 256 := by decide
theorem witness_StoreWritesTheByteAtTheAddressRegister :
    (0 : Byte).toNat < 8 ∧ (7 : Byte).toNat < 8 ∧ 8 ≤ (255 : Byte).toNat ∧
      (startAt 253 [0x9A]).pc.toNat + 3 = 256 := by decide
theorem witness_PrintsEmitOneEvent :
    (7 : Byte).toNat < 8 ∧ 8 ≤ (8 : Byte).toNat ∧ (startAt 254 [0x43, 7]).pc.toNat + 2 = 256 := by decide

theorem witness_AddSubMulStoreTheResultModulo256 :
    (0 : Byte).toNat < 8 ∧ (7 : Byte).toNat < 8 ∧ 8 ≤ (8 : Byte).toNat := by decide

/-- A divisor of 0 and the least that is not. -/
theorem witness_DivModStoreQuotientAndRemainderOrRaise :
    (0 : Byte).toNat < 8 ∧ (7 : Byte).toNat < 8 ∧ (startAt 0x10 [] (regs := [(7, 1)])).reg 7 ≠ 0 ∧
      (startAt 0x10 [] (regs := [(7, 0)])).reg 7 = 0 := by decide

theorem witness_IncDecStoreTheNewValue : (7 : Byte).toNat < 8 ∧ 8 ≤ (8 : Byte).toNat := by decide

theorem witness_LogicWorksBitByBit :
    (0 : Byte).toNat < 8 ∧ (7 : Byte).toNat < 8 ∧ 8 ≤ (8 : Byte).toNat := by decide

/-- Shift amounts on both sides of 8. -/
theorem witness_ShiftsUseTheWholeAmount :
    (0 : Byte).toNat < 8 ∧ (7 : Byte).toNat < 8 ∧
      ¬ 8 ≤ ((startAt 0x10 [] (regs := [(7, 7)])).reg 7).toNat ∧
      8 ≤ ((startAt 0x10 [] (regs := [(7, 8)])).reg 7).toNat := by decide

/-- Equal, greater, less. -/
theorem witness_CompareSetsExactlyOneFlag :
    let s := startAt 0x10 [] (regs := [(0, 255), (1, 255), (2, 254)])
    (s.reg 0).toNat = (s.reg 1).toNat ∧ (s.reg 1).toNat > (s.reg 2).toNat ∧
      (s.reg 2).toNat < (s.reg 0).toNat := by decide

theorem witness_JumpGoesToTheRegister : (7 : Byte).toNat < 8 ∧ 8 ≤ (8 : Byte).toNat := by decide

/-- Each flag set and clear. -/
theorem witness_ConditionalJumpsTestTheirFlag :
    ∀ k ∈ [0, 1, 2], (startAt 0x10 [] (fl := 0b111)).fl.getLsbD k = true ∧
      (startAt 0x10 [] (fl := 0)).fl.getLsbD k = false := by decide

theorem witness_JumpAfterCompareFollowsTheUnsignedOrder :
    (0 : Byte).toNat < 8 ∧ (7 : Byte).toNat < 8 ∧ (startAt 250 []).pc.toNat + 5 ≤ 255 := by decide

theorem witness_PushStoresBelowTheStackPointer :
    (6 : Byte).toNat < 8 ∧ (7 : Byte).toNat < 8 ∧ 8 ≤ (8 : Byte).toNat := by decide

/-- A register other than R7, and R7. -/
theorem witness_PopLoadsAtTheStackPointer :
    (⟨(6 : Byte).toNat, by decide⟩ : Fin 8) ≠ 7 ∧ (⟨(7 : Byte).toNat, by decide⟩ : Fin 8) = 7 := by
  decide

/-- A CALL at 253 and at 254. -/
theorem witness_CallPushesTheReturnAddress :
    (7 : Byte).toNat < 8 ∧ (startAt 253 [0x48, 7]).pc.toNat + 2 ≤ 255 ∧
      (startAt 254 [0x48, 7]).pc.toNat + 2 = 256 := by decide

theorem witness_PopAfterPushRestoresTheStackPointer :
    (0 : Byte).toNat < 8 ∧ (6 : Byte).toNat < 8 ∧ (0 : Byte) ≠ 7 ∧ (6 : Byte) ≠ 7 ∧
      (startAt 251 []).pc.toNat + 4 ≤ 255 := by decide

theorem witness_ReturnAfterCallComesBack :
    (7 : Byte).toNat < 8 ∧ (startAt 253 [0x48, 7]).pc.toNat + 2 ≤ 255 := by decide

/-- The last INT whose operand byte exists, one whose operand byte would be at 256, and an IRET. -/
theorem witness_IntAndIretAreUnimplemented :
    (startAt 254 [0x4A]).run = .running ∧ (startAt 254 [0x4A]).memRead 254 = 0x4A ∧
      (startAt 254 [0x4A]).pc ≠ 255 ∧ (startAt 255 [0x4A]).pc = 255 ∧
      (startAt 255 [0x4A]).memRead 255 = 0x4A ∧ (startAt 255 [0x0B]).memRead 255 = 0x0B := by decide

/-- A bad operand A, a bad operand B, and none. -/
theorem witness_RegisterIndexCheckReportsTheFirstBadOperand :
    (checkedOperands (.add 8 9)).find? (fun b => decide (8 ≤ b.toNat)) = some 8 ∧
      (checkedOperands (.add 7 8)).find? (fun b => decide (8 ≤ b.toNat)) = some 8 ∧
      (checkedOperands (.ldi 7 8)).find? (fun b => decide (8 ≤ b.toNat)) = none := by decide

/-- Every row of R187 is the first that fires somewhere, and in one state none does. -/
theorem witness_TickRaisesTheFirstFaultOfTheOrder :
    firstFault (allRows (startAt 0xFF [0xC3])) = some (.invalidOpcode, 0xC3) ∧
    firstFault (allRows (startAt 0xFF [0x4A])) = some (.memoryOutOfRange, 256) ∧
    firstFault (allRows (startAt 0xFE [0xAB, 8])) = some (.memoryOutOfRange, 256) ∧
    firstFault (allRows (startAt 0xFE [0x4A, 8])) = some (.unimplementedInstruction, 0x4A) ∧
    firstFault (allRows (startAt 0xFD [0xAB, 8, 9])) = some (.registerIndexOutOfRange, 8) ∧
    firstFault (allRows (startAt 0xFD [0xAB, 0, 9])) = some (.registerIndexOutOfRange, 9) ∧
    firstFault (allRows (startAt 0xFD [0xAB, 0, 1])) = some (.divisionByZero, 0xAB) ∧
    firstFault (allRows (startAt 0xFD [0xAC, 0, 1])) = some (.moduloByZero, 0xAC) ∧
    firstFault (allRows (startAt 0xFE [0x48, 0])) = some (.memoryOutOfRange, 256) ∧
    firstFault (allRows (startAt 0xFE [0x51, 0])) = some (.memoryOutOfRange, 256) ∧
    firstFault (allRows (startAt 0xFE [0x51, 0] (fl := 1))) = none := by decide

theorem witness_ExceptionsBeforeTheEffectsArePrecise :
    (startAt 0xFD [0xAB, 0, 1]).run = .running ∧
      firstFault (rowsBeforeEffects (startAt 0xFD [0xAB, 0, 1])) = some (.divisionByZero, 0xAB) ∧
      firstFault (rowsBeforeEffects (startAt 0xFE [0x48, 0])) = some (.memoryOutOfRange, 256) := by decide

theorem witness_AdvanceFaultKeepsTheEffects :
    ∃ u, leavesSequence (Instr.push 3).mnemonic (startAt 0xFE [0x4D, 3]).fl = false ∧
      (startAt 0xFE [0x4D, 3]).run = .running ∧
      (startAt 0xFE [0x4D, 3]).pc.toNat + (Instr.push 3).operandBytes.length = 255 ∧
      exec (.push 3) { startAt 0xFE [0x4D, 3] with pc := 0 } = .next u ∧ u.run = .running :=
  ⟨_, rfl, rfl, rfl, rfl, rfl⟩

theorem witness_FlagsAreWrittenByCompareAndReadByConditionalJumps :
    ∃ t, exec (.cmp 7 0) (startAt 0x10 []) = .next t ∧ isConditionalJump (.cmp 7 0) = false ∧
      ((7 : Byte).toNat < 8 ∧ (0 : Byte).toNat < 8) ∧ ¬((8 : Byte).toNat < 8) :=
  ⟨_, rfl, by decide⟩

theorem witness_OnlyTheNamedRegistersAreWritten :
    ∃ t, exec (.pop 3) (startAt 0x10 []) = .next t ∧
      BitVec.ofNat 8 (6 : Fin 8).val ∉ writtenRegs (.pop 3) := ⟨_, rfl, by decide⟩

/-- Next to a stored byte, and for an instruction that stores nothing. -/
theorem witness_OnlyTheStoredByteOfMemoryChanges :
    (∃ t, exec (.push 3) (startAt 0x10 []) = .next t ∧
      storedAddr (.push 3) (startAt 0x10 []) = some 0xF3 ∧
      storedAddr (.push 3) (startAt 0x10 []) ≠ some 0xF4) ∧
    ∃ t, exec (.cmp 0 1) (startAt 0x10 []) = .next t ∧ storedAddr (.cmp 0 1) (startAt 0x10 []) ≠ some 0 :=
  ⟨⟨_, rfl, by decide, by decide⟩, _, rfl, by decide⟩

theorem witness_OutGrowsByTheEmittedEvents :
    ∃ t, exec (.pra 2) (startAt 0x10 []) = .next t ∧
      emittedEvents (.pra 2) (startAt 0x10 [] (regs := [(2, 0x48)])) = [⟨.chr, 0x48⟩] := ⟨_, rfl, rfl⟩

/-- A step to each of the three run states, and one outside RUNNING. -/
theorem witness_RunningIsLeftOnlyByHltOrARecordedException :
    (∃ t, step (startAt 0x10 [0x00]) = .next t ∧ t.run = .running) ∧
    (∃ t, step (startAt 0x10 [0x01]) = .next t ∧ t.run = .halted) ∧
    (∃ t, step (startAt 0x10 [0x02]) = .next t ∧ t.run = .errorHalted) ∧
    ∃ t, step { startAt 0x10 [0x00] with run := .halted } = .next t :=
  ⟨⟨_, rfl, rfl⟩, ⟨_, rfl, rfl⟩, ⟨_, rfl, rfl⟩, _, rfl⟩

theorem witness_NoInstructionReadsErrOrOut :
    ∃ t, step (startAt 0x10 [0x43, 0]) = .next t ∧ t.out = [⟨.num, 0⟩] := ⟨_, rfl, rfl⟩

theorem witness_MemoryReadsTheLatestWrite :
    ([((1 : Byte), (2 : Byte)), (3, 4), (1, 5)].reverse.find? fun w => w.1 == 1) = some (1, 5) ∧
      ([((1 : Byte), (2 : Byte)), (3, 4)].reverse.find? fun w => w.1 == 9) = none := by decide

theorem witness_CanonicalMemoryIsUnique : Memory.wf [(0, 1), (255, 0xFF)] := by decide

theorem witness_RegistersAreIndependent : (6 : Fin 8) ≠ 7 := by decide

/-- A ST that writes an unassigned byte just after itself. -/
theorem witness_NextFetchSeesTheStoredByte :
    let s := startAt 252 [0x9A, 0, 1] (regs := [(0, 255), (1, 0xFF)])
    s.run = .running ∧ s.pc.toNat + 3 ≤ 255 ∧
      decode (streamBytes s) = .ok (.st (BitVec.ofNat 8 (0 : Fin 8).val) (BitVec.ofNat 8 (1 : Fin 8).val), []) ∧
      s.reg 0 = s.pc + 3 ∧ opcodeMap.lookup (s.reg 1) = none := ⟨rfl, by decide, rfl, rfl, rfl⟩

/-- T2 at the highest place it can stand. -/
theorem witness_LoadImmediateThenPrintEmitsTheByte :
    let s := startAt 250 [0x99, 7, 0xFF, 0x43, 7]
    s.run = .running ∧ (7 : Byte).toNat < 8 ∧ s.pc.toNat + 5 ≤ 255 ∧
      decode (streamBytes s) = .ok (.ldi 7 0xFF, []) ∧
      decode (streamBytes { s with pc := s.pc + 3 }) = .ok (.prn 7, [0]) :=
  ⟨rfl, by decide, by decide, rfl, rfl⟩

/-- A running state, a halted one and a faulted one have the invariant, and a halted one under another
map. -/
theorem witness_EveryStepKeepsTheInvariant :
    (startAt 0x10 [0xA0, 0, 1] (fl := 4)).Inv opcodeMap ∧
    State.Inv opcodeMap { startAt 0x10 [0x01] with run := .halted } ∧
    State.Inv opcodeMap { startAt 0x10 [0x43, 8] with
      run := .errorHalted, err := ⟨.registerIndexOutOfRange, 0x10, 8⟩ } ∧
    State.Inv laterMap { startAt 0x10 [0x01] with run := .halted } ∧
    (∃ t, step (startAt 0x10 [0xA0, 0, 1] (fl := 4)) = .next t) ∧
    laterMap.Valid ∧ ∃ t, tick laterMap { startAt 0x10 [0x01] with run := .halted } = .next t := by
  refine ⟨⟨?_, ?_, ?_, ?_, ?_, ?_, ?_⟩, ⟨?_, ?_, ?_, ?_, ?_, ?_, ?_⟩, ⟨?_, ?_, ?_, ?_, ?_, ?_, ?_⟩,
    ⟨?_, ?_, ?_, ?_, ?_, ?_, ?_⟩, ⟨_, rfl⟩, witness_laterMap_valid, _, rfl⟩ <;> decide

theorem witness_ResetHasTheInvariant : Memory.wf [(0, 0x99), (2, 8), (3, 1)] := by decide

theorem witness_AnEndedRunStaysEnded :
    State.ended { startAt 0x10 [0x01] with run := .halted } := by unfold State.ended; decide

/-- A run that ends well and a run that ends in a fault, each under the map named. -/
theorem witness_RunsFromResetEndWellOrWithACause :
    (opcodeMap.Valid ∧ Memory.wf [(0, 1)] ∧
      ∃ t : State, (machineOf opcodeMap 0 Config.regReset [(0, 1)]).run 2
        (State.resetWith 0 Config.regReset [(0, 1)]) = .next t ∧ State.endedWell t) ∧
    (laterMap.Valid ∧ Memory.wf [(0, 0x99)] ∧
      ∃ t : State, (machineOf laterMap 0 Config.regReset [(0, 0x99)]).run 2
        (State.resetWith 0 Config.regReset [(0, 0x99)]) = .next t ∧ State.endedInFault t) :=
  ⟨⟨opcodeMap_valid, by decide, _, rfl, rfl⟩, witness_laterMap_valid, by decide, _, rfl, rfl⟩

/-- Each clause at its bound, under a map that is not the default: no mnemonic, the last operand byte at
255, and at 256. -/
theorem witness_TickUnderEveryMapFollowsThatMap :
    laterMap.Valid ∧ (∀ m ∈ Mnemonic.all, laterMap m ≠ opByte (startAt 0xFF [0x99])) ∧
      laterMap .ldi = opByte (startAt 0xFD [0x82]) ∧
      (startAt 0xFD [0x82]).pc.toNat + Mnemonic.ldi.format.operandCount = 255 ∧
      laterMap .ldi = opByte (startAt 0xFE [0x82]) ∧
      (startAt 0xFE [0x82]).pc.toNat + Mnemonic.ldi.format.operandCount = 256 ∧
      (startAt 0xFD [0x82]).run = .running :=
  ⟨witness_laterMap_valid, by decide, rfl, rfl, rfl, rfl, rfl⟩

/-- Each clause where the last operand byte is at 255, and the zero divisor in R7. -/
theorem witness_ReportedOpcodeIsTheByteOfTheMap :
    let s := startAt 0xFD [0xA3, 0, 7] (regs := [(7, 0)])
    let t := startAt 0xFD [0xAC, 7, 0]
    s.run = .running ∧ opByte s = laterMap .div ∧ s.pc.toNat + 2 = 255 ∧ (byteA s).toNat < 8 ∧
      (byteB s).toNat < 8 ∧ operandValue s (byteB s) = 0 ∧
    t.run = .running ∧ opByte t = opcodeMap .mod ∧ t.pc.toNat + 2 = 255 ∧ (byteA t).toNat < 8 ∧
      (byteB t).toNat < 8 ∧ operandValue t (byteB t) = 0 ∧
    opByte (startAt 0xFE [0x52]) = laterMap .int ∧ (startAt 0xFE [0x52]).pc.toNat + 1 = 255 ∧
    opByte (startAt 0xFF [0x13]) = laterMap .iret := by decide

end Sys2Proof.Tests
end

/-! ## SUPPORT of the scope's statements: the operand bytes of an instruction (30_encoding R72) -/

section
namespace Sys2Proof

/-- The instructions of format Z (R72). -/
theorem Instr.operandBytes_eq_nil {i : Instr} (h : i.operandBytes = []) :
    i = .nop ∨ i = .hlt ∨ i = .ret ∨ i = .iret := by
  cases i <;> simp_all [Instr.operandBytes]

theorem Mnemonic.build_length (m : Mnemonic) (a b : Byte) :
    (m.build a b).operandBytes.length = m.format.operandCount := by
  rw [Instr.operandBytes_length, Mnemonic.mnemonic_build]

theorem Mnemonic.build_eq_hlt {m : Mnemonic} {a b : Byte} (h : m.build a b = .hlt) : m = .hlt := by
  rw [← m.mnemonic_build a b, h]; rfl

end Sys2Proof
end

/-! ## SUPPORT of the scope's statements: what keeps the invariant of the core (10_state R29 to R35,
60_exceptions R180, R186) -/

section
namespace Sys2Proof.Machine

/-! ### Exceptions -/

/-- What `State.Inv` asks of an exception's report: an index is 8 or more, an address is 256 (R33, R180). -/
def Exception.Reportable : Exception → Prop
  | .registerIndexOutOfRange b => 8 ≤ b.toNat
  | .memoryOutOfRange addr => addr.toNat = 256
  | .invalidOpcode _ | .divisionByZero _ | .moduloByZero _ | .unimplementedInstruction _ => True

theorem Exception.cause_ne_noError (e : Exception) : e.cause ≠ .noError := by cases e <;> simp [cause]

theorem Exception.Reportable.bad_index {e : Exception} (he : e.Reportable)
    (hc : e.cause = .registerIndexOutOfRange) : 8 ≤ e.info.toNat ∧ e.info.toNat ≤ 255 := by
  cases e with
  | registerIndexOutOfRange b =>
    have hb : 8 ≤ b.toNat := he
    have hlt := b.isLt
    simp only [info, BitVec.toNat_setWidth]
    omega
  | _ => simp [cause] at hc

theorem Exception.Reportable.bad_address {e : Exception} (he : e.Reportable)
    (hc : e.cause = .memoryOutOfRange) : e.info.toNat = 256 := by
  cases e with
  | memoryOutOfRange addr => exact he
  | _ => simp [cause] at hc

/-- Where the operand bytes exist, an instruction that has one reports an address of 256: only the return
address of CALL is reported before the effects, and it is PC + 2 (R163). -/
theorem Exception.FromExec.reportable {s : State} {e : Exception} (he : e.FromExec s)
    (hpc : s.pc.toNat + 1 ≤ 255) : e.Reportable := by
  cases e with
  | memoryOutOfRange addr =>
    obtain ⟨rfl, hge⟩ : addr = returnAddr s ∧ 256 ≤ addr.toNat := he
    rw [returnAddr_toNat] at hge
    show (returnAddr s).toNat = 256
    rw [returnAddr_toNat]
    omega
  | registerIndexOutOfRange b => exact he
  | _ => trivial

/-! ### The invariant under what ends a tick -/

/-- Taking a reportable exception keeps the invariant, from any state that has it (R186). -/
theorem State.Inv.takeException {map : OpcodeMap} {s : State} (hs : s.Inv map) {e : Exception}
    (he : e.Reportable) : (takeException e s).Inv map where
  mem_wf := hs.mem_wf
  fl_legal := hs.fl_legal
  err_clear h := absurd rfl h
  err_at_pc _ := ⟨e.cause_ne_noError, rfl⟩
  bad_index := he.bad_index
  bad_address := he.bad_address
  at_hlt h := by simp at h

/-- In RUNNING the invariant does not look at PC. -/
theorem State.Inv.setPc {map : OpcodeMap} {s : State} (hs : s.Inv map) (hr : s.run = .running) (pc : Byte) :
    State.Inv map { s with pc := pc } where
  mem_wf := hs.mem_wf
  fl_legal := hs.fl_legal
  err_clear := hs.err_clear
  err_at_pc h := by simp [hr] at h
  bad_index := hs.bad_index
  bad_address := hs.bad_address
  at_hlt h := by simp [hr] at h

/-- Halting at a HLT byte keeps the invariant (R171). -/
theorem State.Inv.halt {map : OpcodeMap} {s : State} (hs : s.Inv map) (hr : s.run = .running)
    (hop : s.memRead s.pc = map .hlt) : State.Inv map { s with run := .halted } where
  mem_wf := hs.mem_wf
  fl_legal := hs.fl_legal
  err_clear _ := hs.err_clear (by simp [hr])
  err_at_pc h := by simp at h
  bad_index := hs.bad_index
  bad_address := hs.bad_address
  at_hlt _ := hop

/-- The advance past an instruction whose last byte is at most at 255 keeps the invariant (R109, R110). -/
theorem State.Inv.advance {map : OpcodeMap} {s : State} (hs : s.Inv map) (hr : s.run = .running) {n : Nat}
    (hn : n ≤ 2) (hfit : s.pc.toNat + n ≤ 255) : (advance n s).Inv map := by
  rcases advance_cases s hn with ⟨_, h⟩ | ⟨hge, h⟩ <;> rw [h]
  · exact hs.setPc hr _
  · refine hs.takeException ?_
    show (streamAddr s.pc (n + 1)).toNat = 256
    rw [streamAddr_toNat _ (by omega)]
    omega

/-! ### The invariant under the effects of an instruction -/

/-- The effects of any instruction keep the invariant in RUNNING: what they store goes to a byte address, and
what CMP writes to FL is 1, 2 or 4. -/
theorem Committed.inv {map : OpcodeMap} {i : Instr} {s t : State} (h : Committed i s t) (hs : s.Inv map)
    (hr : s.run = .running) : t.Inv map where
  mem_wf := by
    rcases h.mem with hm | ⟨a, v, hm⟩ <;> rw [hm]
    · exact hs.mem_wf
    · exact Memory.write_wf hs.mem_wf (byte_lt_memSize a) v
  fl_legal := by
    rcases h.fl with hf | ⟨_, hf⟩
    · rw [hf]; exact hs.fl_legal
    · exact .inr hf
  err_clear _ := h.err.trans (hs.err_clear (by simp [hr]))
  err_at_pc hrun := by simp [h.run, hr] at hrun
  bad_index := h.err ▸ hs.bad_index
  bad_address := h.err ▸ hs.bad_address
  at_hlt hrun := by simp [h.run, hr] at hrun

/-- A legal effect keeps the invariant to the end of its tick, if it raises nothing that is not reportable and
the byte at PC is that of HLT when it halts. -/
theorem Effect.Legal.finish_inv {map : OpcodeMap} {i : Instr} {s : State} {f : Effect} (hf : f.Legal i s)
    (hs : s.Inv map) (hr : s.run = .running) (hfit : s.pc.toNat + i.operandBytes.length ≤ 255)
    (hraise : ∀ e, f = .raised e → e.Reportable) (hop : i = .hlt → s.memRead s.pc = map .hlt) :
    (f.finish i.operandBytes.length s).Inv map := by
  cases f with
  | raised e => exact hs.takeException (hraise e rfl)
  | fallThrough t =>
    obtain ⟨hc, -⟩ := hf
    have hn : i.operandBytes.length ≤ 2 := i.operandBytes_length ▸ i.mnemonic.format.operandCount_le
    exact (hc.inv hs hr).advance (hc.run.trans hr) hn (hc.pc ▸ hfit)
  | taken t target =>
    obtain ⟨hc, -⟩ := hf
    exact (hc.inv hs hr).setPc (hc.run.trans hr) target
  | halt t =>
    obtain ⟨rfl, hi⟩ := hf
    exact hs.halt hr (hop hi)

/-- `exec_cases` where the operand bytes of the instruction exist: then what it raises is reportable. Format Z
stands apart because it may be at 255, where `Exception.FromExec` would allow the address 257. -/
theorem exec_cases_reportable {i : Instr} {s : State} (hfit : s.pc.toNat + i.operandBytes.length ≤ 255) :
    ∃ f : Effect, exec i s = complete i.operandBytes.length s f ∧ f.Legal i s ∧
      ∀ e, f = .raised e → e.Reportable := by
  by_cases h0 : i.operandBytes = []
  · rcases Instr.operandBytes_eq_nil h0 with rfl | rfl | rfl | rfl
    · exact ⟨_, rfl, ⟨Committed.refl _ s, by simp⟩, by simp⟩
    · exact ⟨_, rfl, ⟨rfl, rfl⟩, by simp⟩
    · exact ⟨_, rfl, ⟨committed_setReg _ s _ _, by simp⟩, by simp⟩
    · exact ⟨_, rfl, trivial, by rintro e ⟨⟩; trivial⟩
  · have hpos := List.length_pos_iff.mpr h0
    obtain ⟨f, hf, hl⟩ := exec_cases i s
    exact ⟨f, hf, hl, by rintro e rfl; exact Exception.FromExec.reportable hl (by omega)⟩

/-- An instruction whose bytes exist, run in RUNNING, keeps the invariant. -/
theorem exec_keeps_inv {map : OpcodeMap} {i : Instr} {s t : State} (hs : s.Inv map) (hr : s.run = .running)
    (hfit : s.pc.toNat + i.operandBytes.length ≤ 255) (hop : i = .hlt → s.memRead s.pc = map .hlt)
    (h : exec i s = .next t) : t.Inv map := by
  obtain ⟨f, hf, hl, hraise⟩ := exec_cases_reportable hfit
  rw [hf, complete] at h
  cases h
  exact hl.finish_inv hs hr hfit hraise hop

/-! ### The invariant under a tick -/

/-- Every tick keeps the invariant, under every opcode map that meets R77. -/
theorem tick_keeps_inv {map : OpcodeMap} (hv : map.Valid) {s t : State} (hs : s.Inv map)
    (h : tick map s = .next t) : t.Inv map := by
  rcases tick_cases hv s with ⟨_, ht⟩ | ⟨_, _, ht⟩ | ⟨_, _, _, _, ht⟩ | ⟨m, hr, hm, hfit, ht⟩ <;> rw [ht] at h
  · cases h; exact hs
  · cases h; exact hs.takeException trivial
  · cases h; exact hs.takeException rfl
  · refine exec_keeps_inv hs hr (m.build_length _ _ ▸ hfit) (fun hi => ?_) h
    rw [hm, Mnemonic.build_eq_hlt hi]

/-- Every tick answers a next state (R186: an exception is one). -/
theorem tick_next {map : OpcodeMap} (hv : map.Valid) (s : State) : ∃ t, tick map s = .next t := by
  rcases tick_cases hv s with ⟨_, ht⟩ | ⟨_, _, ht⟩ | ⟨_, _, _, _, ht⟩ | ⟨_, _, _, _, ht⟩
  · exact ⟨_, ht⟩
  · exact ⟨_, ht⟩
  · exact ⟨_, ht⟩
  · obtain ⟨f, hf, -⟩ := exec_cases _ s
    exact ⟨_, ht.trans hf⟩

/-- Reset on a canonical memory has the invariant (R36). -/
theorem resetWith_inv (map : OpcodeMap) (entry : Byte) (regs : Vector Byte 8) {image : Memory}
    (h : image.wf) : (State.resetWith entry regs image).Inv map where
  mem_wf := h
  fl_legal := .inl rfl
  err_clear _ := rfl
  err_at_pc h := by simp at h
  bad_index h := by simp [ErrorRecord.clear] at h
  bad_address h := by simp [ErrorRecord.clear] at h
  at_hlt h := by simp at h

/-- A run of any number of ticks answers a state, and keeps the invariant. -/
theorem machineOf_run_inv {map : OpcodeMap} (hv : map.Valid) (entry : Byte) (regs : Vector Byte 8)
    (image : Memory) (k : Nat) {s : State} (hs : s.Inv map) :
    ∃ t : State, (machineOf map entry regs image).run k s = .next t ∧ t.Inv map := by
  induction k generalizing s with
  | zero => exact ⟨s, rfl, hs⟩
  | succ k ih =>
    obtain ⟨u, hu⟩ := tick_next hv s
    rw [machineOf_run_next k hu]
    exact ih (tick_keeps_inv hv hs hu)

/-! ### What DIV and MOD do with a zero divisor (R182) -/

/-- A two-source ALU instruction whose operation fails takes the ALU's exception and writes nothing (R105). -/
theorem complete_aluTwoSource_error {op : AluOp} {a b : Byte} {s : State} {e : AluError} (ha : a.toNat < 8)
    (hb : b.toNat < 8) (h : aluApply op (s.reg ⟨a.toNat, ha⟩) (s.reg ⟨b.toNat, hb⟩) = .error e) :
    complete 2 s (aluTwoSource op a b s) = .next (takeException (e.exception s.opcode) s) := by
  rw [aluTwoSource, withRegs_legal ha hb, h, writeResult, complete_raised]

theorem exec_div_by_zero {a b : Byte} {s : State} (ha : a.toNat < 8) (hb : b.toNat < 8)
    (h0 : s.reg ⟨b.toNat, hb⟩ = 0) :
    exec (.div a b) s = .next (takeException (.divisionByZero s.opcode) s) :=
  complete_aluTwoSource_error ha hb (e := .divideByZero) (by simp [aluApply, h0])

theorem exec_mod_by_zero {a b : Byte} {s : State} (ha : a.toNat < 8) (hb : b.toNat < 8)
    (h0 : s.reg ⟨b.toNat, hb⟩ = 0) :
    exec (.mod a b) s = .next (takeException (.moduloByZero s.opcode) s) :=
  complete_aluTwoSource_error ha hb (e := .moduloByZero) (by simp [aluApply, h0])

end Sys2Proof.Machine
end

/-! ## The scope's statements (00_scope R6) -/

section
namespace Sys2Proof.Claims

open Sys2Proof.Machine

/-- An exception taken is the entry that `Takes` describes (R186). -/
theorem takes_takeException (e : Exception) (s : State) {info : Nat} (h : e.info = BitVec.ofNat 9 info) :
    Takes (.next (takeException e s)) s e.cause info := by
  rw [Takes, ← h]; rfl

theorem operandValue_legal {s : State} {b : Byte} (hb : b.toNat < 8) :
    operandValue s b = s.reg ⟨b.toNat, hb⟩ := dif_pos hb

/-- Settles O54: the two clauses are one, `tick_keeps_inv`, since a step is the tick of the default map. -/
theorem everyStepKeepsTheInvariant : Obligations.EveryStepKeepsTheInvariant :=
  ⟨fun _ _ hs h => tick_keeps_inv opcodeMap_valid hs h, fun _ hv _ _ hs h => tick_keeps_inv hv hs h⟩

/-- Settles O55: each clause is about a field that reset fixes, or about the image. -/
theorem resetHasTheInvariant : Obligations.ResetHasTheInvariant :=
  fun map entry regs _ h => resetWith_inv map entry regs h

/-- Settles O57: the run keeps the invariant, whose clauses on HALTED and ERROR_HALTED are the two ends. -/
theorem runsFromResetEndWellOrWithACause : Obligations.RunsFromResetEndWellOrWithACause := by
  intro map k entry regs image hv hw
  obtain ⟨t, ht, hi⟩ := machineOf_run_inv hv entry regs image k (resetWith_inv map entry regs hw)
  refine ⟨t, ht, fun hwell => ?_, hi.err_at_pc, fun ⟨hwell, hfault⟩ => ?_⟩
  · have hrun : t.run = .halted := hwell
    exact ⟨hi.err_clear (by simp [hrun]), hi.at_hlt hrun⟩
  · exact absurd (hwell.symm.trans hfault) (by decide)

/-- Settles O58: one clause for each result of the fetch. -/
theorem tickUnderEveryMapFollowsThatMap : Obligations.TickUnderEveryMapFollowsThatMap := by
  refine ⟨fun map hv s hr => ⟨fun hnone => ?_, fun m hm => ⟨fun hfit => ?_, fun hover => ?_⟩⟩, step_eq_tick⟩
  · rw [tick_fetch_fault hr (fetchInstr_unassigned (OpcodeMap.lookup_none.mpr hnone))]
    exact takes_takeException _ s (BitVec.ofNat_toNat ..).symm
  · exact tick_fetched hr (fetchInstr_fits hv hm.symm hfit)
  · rw [tick_fetch_fault hr (fetchInstr_overflows hv hm.symm hover)]
    exact takes_takeException _ s rfl

/-- A tick that runs an instruction which raises an exception that reports `op`, the byte at PC, records the
byte the map gives the mnemonic. -/
theorem takes_of_raises_opcode {map : OpcodeMap} (hv : map.Valid) {s : State} (hr : s.run = .running)
    {m : Mnemonic} (hm : opByte s = map m) (hfit : s.pc.toNat + m.format.operandCount ≤ 255)
    {e : Exception} (hinfo : e.info = s.opcode.setWidth 9)
    (hx : exec (m.build (byteA s) (byteB s)) s = .next (takeException e s)) :
    Takes (tick map s) s e.cause (map m).toNat := by
  rw [tick_fetched hr (fetchInstr_fits hv hm hfit)]
  refine hx ▸ takes_takeException e s (hinfo.trans ?_)
  rw [← hm, BitVec.ofNat_toNat]
  rfl

/-- Settles O59: in each clause the instruction raises an exception that reports the byte at PC. -/
theorem reportedOpcodeIsTheByteOfTheMap : Obligations.ReportedOpcodeIsTheByteOfTheMap := by
  refine ⟨fun map hv s hr => ⟨?_, ?_, ?_, ?_⟩, rfl, rfl, rfl, rfl⟩
  · rintro hm ⟨hfit, ha, hb, h0⟩
    exact takes_of_raises_opcode hv hr hm hfit rfl (exec_div_by_zero ha hb (operandValue_legal hb ▸ h0))
  · rintro hm ⟨hfit, ha, hb, h0⟩
    exact takes_of_raises_opcode hv hr hm hfit rfl (exec_mod_by_zero ha hb (operandValue_legal hb ▸ h0))
  · exact fun hm hfit =>
      takes_of_raises_opcode hv hr hm hfit (e := .unimplementedInstruction s.opcode) rfl rfl
  · exact fun hm => takes_of_raises_opcode hv hr hm (Nat.le_of_lt_succ s.pc.isLt)
      (e := .unimplementedInstruction s.opcode) rfl rfl

/-- Settles O2: the reset state computes to these values. -/
theorem defaultResetHoldsDefaultsAndEmptyMemory : Obligations.DefaultResetHoldsDefaultsAndEmptyMemory :=
  ⟨rfl, by decide, rfl, rfl, rfl, rfl, fun _ => rfl⟩

end Sys2Proof.Claims
end

/-! ## SUPPORT of the state's statements: what an instruction leaves unchanged (10_state R23, R24, R30, R35,
20_memory R57, 40_tick_and_dispatch R112) -/

section
namespace Sys2Proof

theorem Mnemonic.build_eq_hlt_iff {m : Mnemonic} {a b : Byte} : m.build a b = .hlt ↔ m = .hlt :=
  ⟨Mnemonic.build_eq_hlt, fun h => h ▸ rfl⟩

end Sys2Proof
end

section
namespace Sys2Proof.Machine

open Sys2Proof.Claims

/-! ### Memory as data -/

/-- The entries of a canonical memory are the addresses that read another byte than an unlisted one does, each
with the byte it reads. -/
theorem Memory.mem_iff {m : Memory} (h : m.wf) {k : Nat} {v : Byte} :
    (k, v) ∈ m ↔ k < Config.memSize ∧ v ≠ Config.unlistedByte ∧ m.read k = v := by
  constructor
  · intro hc
    obtain ⟨hk, hv⟩ := h.2 _ hc
    exact ⟨hk, hv, Memory.read_eq_of_mem h hc⟩
  · rintro ⟨_, hv, rfl⟩
    exact Memory.mem_of_read_ne hv

/-- Lists in the strict order of their addresses are equal when they have the same entries. -/
theorem Memory.eq_of_mem_iff {m m' : Memory} (h : m.wf) (h' : m'.wf) (hm : ∀ c, c ∈ m ↔ c ∈ m') : m = m' :=
  have : Std.Asymm fun c d : Host.Cell => c.1 < d.1 := ⟨fun _ _ => Nat.lt_asymm⟩
  h.1.eq_of_mem_iff h'.1 hm

/-! ### FL after an instruction (R30) -/

/-- Only CMP writes FL: no other instruction commits another FL, and no end of a tick touches it. -/
theorem exec_fl_kept {i : Instr} {s t : State} (hi : i.mnemonic ≠ .cmp) (h : exec i s = .next t) :
    t.fl = s.fl := by
  obtain ⟨f, hf, rfl⟩ := exec_next h
  have kept {u : State} (hu : Committed i s u) : u.fl = s.fl := hu.fl.resolve_right fun hc => hi hc.1
  cases f with
  | raised e => rfl
  | fallThrough u => exact (advance_fl _ u).trans (kept hf.1)
  | taken u p => exact kept (u := u) hf.1
  | halt u =>
    obtain ⟨rfl, -⟩ := hf
    rfl

/-- CMP with legal operands makes FL 1, 2 or 4 (R147). -/
theorem exec_cmp_fl_legal {a b : Byte} {s t : State} (ha : a.toNat < 8) (hb : b.toNat < 8)
    (h : exec (.cmp a b) s = .next t) : t.fl = 1 ∨ t.fl = 2 ∨ t.fl = 4 := by
  rw [exec, execCmp, withRegs_legal ha hb, complete_fallThrough] at h
  obtain rfl := Host.Outcome.next.inj h
  rw [advance_fl]
  exact writeFlags_fl_legal ..

/-- CMP with a bad operand takes the index exception and leaves FL (R106). -/
theorem exec_cmp_fl_illegal {a b : Byte} {s t : State} (hab : ¬(a.toNat < 8 ∧ b.toNat < 8))
    (h : exec (.cmp a b) s = .next t) : t.fl = s.fl := by
  rw [exec, execCmp] at h
  rcases withRegs_cases a b _ with ⟨ha, hb, _⟩ | ⟨c, _, hc⟩
  · exact absurd ⟨ha, hb⟩ hab
  · rw [hc, complete_raised] at h
    obtain rfl := Host.Outcome.next.inj h
    rfl

/-! ### The frame of an instruction (R23, R57, R112)

`Confined` says what `writtenRegs`, `storedAddr` and `emittedEvents` list. None of its fields is touched by the
end of a tick, so it goes from the effect of an instruction to the state after it. -/

/-- `t` differs from `s` in no register, no byte of memory and no event but those listed for `i`. -/
structure Confined (i : Instr) (s t : State) : Prop where
  reg : ∀ r : Fin 8, BitVec.ofNat 8 r ∉ writtenRegs i → t.reg r = s.reg r
  mem : ∀ x : Byte, storedAddr i s ≠ some x → t.memRead x = s.memRead x
  out : t.out = s.out ++ emittedEvents i s

/-- What `f` commits is confined; an instruction that raises must not be listed with an event. -/
def Effect.Confined (i : Instr) (s : State) : Effect → Prop
  | .raised _ => emittedEvents i s = []
  | .fallThrough t | .taken t _ | .halt t => Machine.Confined i s t

section
variable {i : Instr} {s t : State}

theorem Confined.refl (hev : emittedEvents i s = []) : Confined i s s :=
  ⟨fun _ _ => rfl, fun _ _ => rfl, by simp [hev]⟩

/-- A register write is confined if the instruction is listed with that register. -/
theorem Confined.setReg (h : Confined i s t) {r : Fin 8} (hr : BitVec.ofNat 8 r ∈ writtenRegs i) (v : Byte) :
    Confined i s (t.setReg r v) where
  reg j hj := by
    have hne : j ≠ r := by rintro rfl; exact hj hr
    rw [State.reg_setReg_other t v hne, h.reg j hj]
  mem := h.mem
  out := h.out

/-- A store is confined if the instruction is listed with that address. -/
theorem Confined.memWrite (h : Confined i s t) {a : Byte} (ha : storedAddr i s = some a) (v : Byte) :
    Confined i s (t.memWrite a v) where
  reg := h.reg
  mem x hx := by
    have hne : x ≠ a := by rintro rfl; exact hx ha
    rw [State.memRead_memWrite, if_neg hne, h.mem x hx]
  out := h.out

theorem Confined.advance (h : Confined i s t) (n : Nat) : Confined i s (advance n t) where
  reg r hr := (State.reg_advance n t r).trans (h.reg r hr)
  mem x hx := (State.memRead_advance n t x).trans (h.mem x hx)
  out := (advance_out n t).trans h.out

theorem Effect.Confined.finish {f : Effect} (hf : f.Confined i s) (n : Nat) :
    Machine.Confined i s (f.finish n s) := by
  cases f with
  | raised e => exact ⟨fun _ _ => rfl, fun _ _ => rfl, (Confined.refl hf).out⟩
  | fallThrough t => exact Confined.advance hf n
  | taken t p =>
    obtain ⟨hreg, hmem, hout⟩ := hf
    exact ⟨hreg, hmem, hout⟩
  | halt t =>
    obtain ⟨hreg, hmem, hout⟩ := hf
    exact ⟨hreg, hmem, hout⟩

theorem Confined.writeFlags (h : Confined i s t) (bits : BitVec 3) : Confined i s (t.writeFlags bits) where
  reg := h.reg
  mem := h.mem
  out := h.out

theorem raised_confined (hev : emittedEvents i s = []) (e : Exception) : (Effect.raised e).Confined i s := hev

theorem withReg_confined {a : Byte} {k : Fin 8 → Effect} (hev : 8 ≤ a.toNat → emittedEvents i s = [])
    (h : ∀ ha : a.toNat < 8, (k ⟨a.toNat, ha⟩).Confined i s) : (withReg a k).Confined i s := by
  rcases withReg_cases a k with ⟨ha, hk⟩ | ⟨ha, hk⟩ <;> rw [hk]
  · exact h ha
  · exact raised_confined (hev ha) _

theorem withRegs_confined {a b : Byte} {k : Fin 8 → Fin 8 → Effect} (hev : emittedEvents i s = [])
    (h : ∀ (ha : a.toNat < 8) (hb : b.toNat < 8), (k ⟨a.toNat, ha⟩ ⟨b.toNat, hb⟩).Confined i s) :
    (withRegs a b k).Confined i s :=
  withReg_confined (fun _ => hev) fun ha => withReg_confined (fun _ => hev) fun hb => h ha hb

/-- The one register an instruction writes is the one its destination operand names. -/
theorem confined_setReg_operand {a : Byte} (ha : a.toNat < 8) (hev : emittedEvents i s = [])
    (hr : a ∈ writtenRegs i) (v : Byte) : Confined i s (s.setReg ⟨a.toNat, ha⟩ v) :=
  (Confined.refl hev).setReg (by simpa using hr) v

theorem writeResult_confined {a : Byte} (ha : a.toNat < 8) (hev : emittedEvents i s = [])
    (hr : a ∈ writtenRegs i) (y : Except AluError Byte) :
    (writeResult s ⟨a.toNat, ha⟩ y).Confined i s := by
  cases y with
  | ok v => exact confined_setReg_operand ha hev hr v
  | error e => exact raised_confined hev _

theorem aluTwoSource_confined {a : Byte} (hev : emittedEvents i s = []) (hr : a ∈ writtenRegs i) (op : AluOp)
    (b : Byte) : (aluTwoSource op a b s).Confined i s :=
  withRegs_confined hev fun ha _ => writeResult_confined ha hev hr _

theorem aluOneSource_confined {a : Byte} (hev : emittedEvents i s = []) (hr : a ∈ writtenRegs i) (op : AluOp) :
    (aluOneSource op a s).Confined i s :=
  withReg_confined (fun _ => hev) fun ha => writeResult_confined ha hev hr _

theorem jumpWhen_confined (hev : emittedEvents i s = []) (cond : Bool) (a : Byte) :
    (jumpWhen cond a s).Confined i s :=
  withReg_confined (fun _ => hev) fun _ => by cases cond <;> exact Confined.refl hev

/-- The decrement of SP is confined if the instruction is listed with R7 (R24). -/
theorem confined_decSp (hev : emittedEvents i s = []) (hr : 7 ∈ writtenRegs i) : Confined i s s.decSp :=
  (Confined.refl hev).setReg hr _

theorem exec_effect_confined (i : Instr) (s : State) :
    ∃ f : Effect, exec i s = complete i.operandBytes.length s f ∧ f.Confined i s := by
  cases i <;> refine ⟨_, rfl, ?_⟩
  case nop | hlt => exact Confined.refl rfl
  case int | iret => exact raised_confined rfl _
  case jmp | jeq | jne | jgt | jlt => exact jumpWhen_confined rfl ..
  case add | sub | mul | div | mod | and | or | xor | shl | shr =>
    exact aluTwoSource_confined rfl (List.mem_singleton_self _) ..
  case inc | dec | not => exact aluOneSource_confined rfl (List.mem_singleton_self _) _
  case ldi =>
    exact withReg_confined (fun _ => rfl) fun ha =>
      confined_setReg_operand ha rfl (List.mem_singleton_self _) _
  case ld =>
    exact withRegs_confined rfl fun ha _ => confined_setReg_operand ha rfl (List.mem_singleton_self _) _
  case cmp => exact withRegs_confined rfl fun _ _ => (Confined.refl rfl).writeFlags _
  case st a b =>
    refine withRegs_confined rfl fun ha _ => ?_
    have haddr : storedAddr (.st a b) s = some (s.indirect ⟨a.toNat, ha⟩) := dif_pos ha
    exact (Confined.refl rfl).memWrite haddr _
  case prn | pra =>
    refine withReg_confined (fun ha => dif_neg (by omega)) fun ha => ⟨fun _ _ => rfl, fun _ _ => rfl, ?_⟩
    simp [emittedEvents, ha]
  case push =>
    exact withReg_confined (fun _ => rfl) fun _ =>
      (confined_decSp rfl (List.mem_singleton_self _)).memWrite rfl _
  case call =>
    refine withReg_confined (fun _ => rfl) fun _ => ?_
    split
    · exact (confined_decSp rfl (List.mem_singleton_self _)).memWrite rfl _
    · exact raised_confined rfl _
  case pop a =>
    refine withReg_confined (fun _ => rfl) fun ha => ?_
    have hd := confined_setReg_operand (i := .pop a) (s := s) ha rfl (List.mem_cons_self ..) (s.memRead s.sp)
    exact hd.setReg (r := spIndex) (by simp [writtenRegs, spIndex]) _
  case ret => exact (Confined.refl rfl).setReg (List.mem_singleton_self _) _

/-- An instruction changes no register, no byte of memory and no event but those listed for it. -/
theorem exec_confined (h : exec i s = .next t) : Confined i s t := by
  obtain ⟨f, hf, hc⟩ := exec_effect_confined i s
  rw [hf, complete] at h
  exact Host.Outcome.next.inj h ▸ hc.finish _

end

/-! ### Two runs that differ in what is not read (R30, R33, R35) -/

/-- `s` with another FL, another ERR and another OUT: what no instruction reads, but for FL, which the
conditional jumps read. -/
def State.withUnread (s : State) (fl : Byte) (err : ErrorRecord) (out : List OutEvent) : State :=
  { s with fl := fl, err := err, out := out }

/-- Two runs, which started in `s` and `s'`, are alike in `t` and `t'`: they agree on all that is read, on FL
and ERR if they started with the same, and they have emitted the same events. -/
structure Alike (s s' t t' : State) : Prop where
  regs : t'.regs = t.regs
  pc : t'.pc = t.pc
  run : t'.run = t.run
  mem : t'.mem = t.mem
  fl : s'.fl = s.fl → t'.fl = t.fl
  err : s'.err = s.err → t'.err = t.err
  out : ∃ events, t.out = s.out ++ events ∧ t'.out = s'.out ++ events

/-- The effects of one instruction in two runs: the same way to end the tick, with states that are alike. -/
inductive Effect.Alike (s s' : State) : Effect → Effect → Prop
  | raised (e : Exception) : Effect.Alike s s' (.raised e) (.raised e)
  | fallThrough {t t' : State} (h : Machine.Alike s s' t t') : Effect.Alike s s' (.fallThrough t) (.fallThrough t')
  | taken {t t' : State} (h : Machine.Alike s s' t t') (p : Byte) : Effect.Alike s s' (.taken t p) (.taken t' p)
  | halt {t t' : State} (h : Machine.Alike s s' t t') : Effect.Alike s s' (.halt t) (.halt t')

section
variable {s s' t t' : State}

theorem Alike.setReg (h : Alike s s' t t') (r : Fin 8) (v : Byte) :
    Alike s s' (t.setReg r v) (t'.setReg r v) :=
  { h with regs := by simp only [State.setReg, h.regs] }

theorem Alike.memWrite (h : Alike s s' t t') (a v : Byte) : Alike s s' (t.memWrite a v) (t'.memWrite a v) :=
  { h with mem := by simp only [State.memWrite_mem, h.mem] }

theorem Alike.emit (h : Alike s s' t t') (kind : OutKind) (v : Byte) :
    Alike s s' (t.emit kind v) (t'.emit kind v) :=
  { h with
    out := by
      obtain ⟨events, ht, ht'⟩ := h.out
      exact ⟨events ++ [⟨kind, v⟩], by simp [ht], by simp [ht']⟩ }

theorem Alike.writeFlags (h : Alike s s' t t') (bits : BitVec 3) :
    Alike s s' (t.writeFlags bits) (t'.writeFlags bits) := { h with fl := fun _ => rfl }

theorem Alike.setPc (h : Alike s s' t t') (p : Byte) : Alike s s' { t with pc := p } { t' with pc := p } :=
  { h with pc := rfl }

theorem Alike.halt (h : Alike s s' t t') : Alike s s' { t with run := .halted } { t' with run := .halted } :=
  { h with run := rfl }

theorem Alike.takeException (h : Alike s s' t t') (e : Exception) :
    Alike s s' (takeException e t) (takeException e t') :=
  { h with run := rfl, err := fun _ => by simp only [takeException_err, h.pc] }

/-- PC alone decides between the advance and its fault (R109, R110). -/
theorem Alike.advance (h : Alike s s' t t') (n : Nat) : Alike s s' (advance n t) (advance n t') := by
  rw [Machine.advance, Machine.advance, h.pc]
  split
  · exact h.setPc _
  · exact h.takeException _

theorem Effect.Alike.finish {f f' : Effect} (hs : Machine.Alike s s' s s') (h : Effect.Alike s s' f f') (n : Nat) :
    Machine.Alike s s' (f.finish n s) (f'.finish n s') := by
  cases h with
  | raised e => exact hs.takeException e
  | fallThrough h => exact h.advance n
  | taken h p => exact h.setPc p
  | halt h => exact h.halt

theorem Effect.Alike.ite {f f' g g' : Effect} (c : Prop) [Decidable c] (hf : Effect.Alike s s' f f')
    (hg : Effect.Alike s s' g g') : Effect.Alike s s' (if c then f else g) (if c then f' else g') := by
  split
  · exact hf
  · exact hg

theorem withReg_alike {a : Byte} {k k' : Fin 8 → Effect} (h : ∀ r, Effect.Alike s s' (k r) (k' r)) :
    Effect.Alike s s' (withReg a k) (withReg a k') := by
  rcases Nat.lt_or_ge a.toNat 8 with ha | ha
  · rw [withReg_legal ha, withReg_legal ha]; exact h _
  · rw [withReg_illegal ha, withReg_illegal ha]; exact .raised _

theorem withRegs_alike {a b : Byte} {k k' : Fin 8 → Fin 8 → Effect}
    (h : ∀ ra rb, Effect.Alike s s' (k ra rb) (k' ra rb)) :
    Effect.Alike s s' (withRegs a b k) (withRegs a b k') :=
  withReg_alike fun ra => withReg_alike fun rb => h ra rb

end

section
variable (s : State) (fl : Byte) (err : ErrorRecord) (out : List OutEvent)

theorem alike_withUnread : Alike s (s.withUnread fl err out) s (s.withUnread fl err out) :=
  ⟨rfl, rfl, rfl, rfl, id, id, [], by simp, by simp⟩

theorem writeResult_alike (r : Fin 8) (y : Except AluError Byte) :
    Effect.Alike s (s.withUnread fl err out) (writeResult s r y) (writeResult (s.withUnread fl err out) r y) := by
  cases y with
  | ok v => exact .fallThrough ((alike_withUnread s fl err out).setReg r v)
  | error e => exact .raised _

theorem aluTwoSource_alike (op : AluOp) (a b : Byte) :
    Effect.Alike s (s.withUnread fl err out) (aluTwoSource op a b s)
      (aluTwoSource op a b (s.withUnread fl err out)) :=
  withRegs_alike fun ra _ => writeResult_alike s fl err out ra _

theorem aluOneSource_alike (op : AluOp) (a : Byte) :
    Effect.Alike s (s.withUnread fl err out) (aluOneSource op a s) (aluOneSource op a (s.withUnread fl err out)) :=
  withReg_alike fun r => writeResult_alike s fl err out r _

theorem jumpWhen_alike (cond : Bool) (a : Byte) :
    Effect.Alike s (s.withUnread fl err out) (jumpWhen cond a s) (jumpWhen cond a (s.withUnread fl err out)) :=
  have h := alike_withUnread s fl err out
  withReg_alike fun _ => .ite _ (.taken h _) (.fallThrough h)

/-- A conditional jump started with the same FL: `cond` is its condition. -/
theorem flagJump_alike {i : Instr} (cond : State → Bool) (a : Byte) (hi : isConditionalJump i = true)
    (hcond : cond (s.withUnread s.fl err out) = cond s) (hfl : isConditionalJump i = false ∨ fl = s.fl) :
    Effect.Alike s (s.withUnread fl err out) (jumpWhen (cond s) a s)
      (jumpWhen (cond (s.withUnread fl err out)) a (s.withUnread fl err out)) := by
  obtain rfl := hfl.resolve_left (by simp [hi])
  rw [hcond]
  exact jumpWhen_alike ..

/-- No instruction reads ERR or OUT, and none but the conditional jumps reads FL. -/
theorem exec_effect_alike (i : Instr) (hfl : isConditionalJump i = false ∨ fl = s.fl) :
    ∃ f f' : Effect, exec i s = complete i.operandBytes.length s f ∧
      exec i (s.withUnread fl err out) = complete i.operandBytes.length (s.withUnread fl err out) f' ∧
      Effect.Alike s (s.withUnread fl err out) f f' := by
  have hs := alike_withUnread s fl err out
  cases i <;> refine ⟨_, _, rfl, rfl, ?_⟩
  case nop => exact .fallThrough hs
  case hlt => exact .halt hs
  case int | iret => exact .raised _
  case jmp => exact jumpWhen_alike ..
  case jeq a => exact flagJump_alike s fl err out State.flagE a rfl rfl hfl
  case jne a => exact flagJump_alike s fl err out (fun s => !s.flagE) a rfl rfl hfl
  case jgt a => exact flagJump_alike s fl err out State.flagG a rfl rfl hfl
  case jlt a => exact flagJump_alike s fl err out State.flagL a rfl rfl hfl
  case add | sub | mul | div | mod | and | or | xor | shl | shr => exact aluTwoSource_alike ..
  case inc | dec | not => exact aluOneSource_alike ..
  case ldi => exact withReg_alike fun _ => .fallThrough (hs.setReg _ _)
  case ld => exact withRegs_alike fun _ _ => .fallThrough (hs.setReg _ _)
  case st => exact withRegs_alike fun _ _ => .fallThrough (hs.memWrite _ _)
  case cmp => exact withRegs_alike fun _ _ => .fallThrough (hs.writeFlags _)
  case prn | pra => exact withReg_alike fun _ => .fallThrough (hs.emit _ _)
  case push => exact withReg_alike fun _ => .fallThrough ((hs.setReg _ _).memWrite _ _)
  case pop => exact withReg_alike fun _ => .fallThrough ((hs.setReg _ _).setReg _ _)
  case call => exact withReg_alike fun _ => .ite _ (.taken ((hs.setReg _ _).memWrite _ _) _) (.raised _)
  case ret => exact .taken (hs.setReg _ _) _

/-- Two runs of an instruction that differ in what it does not read end alike. -/
theorem exec_alike {i : Instr} (hfl : isConditionalJump i = false ∨ fl = s.fl) {t : State}
    (h : exec i s = .next t) :
    ∃ t', exec i (s.withUnread fl err out) = .next t' ∧ Alike s (s.withUnread fl err out) t t' := by
  obtain ⟨f, f', hf, hf', ha⟩ := exec_effect_alike s fl err out i hfl
  rw [hf, complete] at h
  obtain rfl := Host.Outcome.next.inj h
  exact ⟨_, hf', ha.finish (alike_withUnread s fl err out) _⟩

/-- The fetch reads memory and PC only. -/
theorem fetchInstr_withUnread (map : OpcodeMap) :
    fetchInstr map (s.withUnread fl err out) = fetchInstr map s := rfl

/-- Two ticks that differ in ERR and OUT end alike, under every opcode map. -/
theorem tick_alike (map : OpcodeMap) {t : State} (h : tick map s = .next t) :
    ∃ t', tick map (s.withUnread s.fl err out) = .next t' ∧ Alike s (s.withUnread s.fl err out) t t' := by
  have hs := alike_withUnread s s.fl err out
  by_cases hr : s.run = .running
  · have hf' := fetchInstr_withUnread s s.fl err out map
    cases hf : fetchInstr map s with
    | ok i =>
      rw [hf] at hf'
      rw [tick_fetched hr hf] at h
      obtain ⟨t', ht', ha⟩ := exec_alike s s.fl err out (.inr rfl) h
      exact ⟨t', (tick_fetched (s := s.withUnread s.fl err out) hr hf').trans ht', ha⟩
    | error e =>
      rw [hf] at hf'
      rw [tick_fetch_fault hr hf] at h
      obtain rfl := Host.Outcome.next.inj h
      exact ⟨_, tick_fetch_fault hr hf', hs.takeException e⟩
  · rw [tick_stopped map hr] at h
    obtain rfl := Host.Outcome.next.inj h
    exact ⟨_, tick_stopped map hr, hs⟩

end

/-! ### How a tick in RUNNING ends (R32, R33, R186) -/

/-- The ends of a tick that started in `s` in RUNNING, where `hlt` says whether it is that of a HLT. -/
inductive Ending (hlt : Prop) (s t : State) : Prop
  | runsOn (h : ¬hlt) (run : t.run = .running) (err : t.err = s.err)
  | halts (h : hlt) (run : t.run = .halted) (err : t.err = s.err) (pc : t.pc = s.pc)
  | faults (h : ¬hlt) (run : t.run = .errorHalted) (cause : t.err.cause ≠ .noError) (errPc : t.err.pc = s.pc)
      (pc : t.pc = s.pc)

theorem Ending.congr {p q : Prop} (hpq : p ↔ q) {s t : State} (h : Ending p s t) : Ending q s t :=
  propext hpq ▸ h

theorem Ending.takeException {hlt : Prop} (h : ¬hlt) (e : Exception) {s t : State} (hpc : t.pc = s.pc) :
    Ending hlt s (takeException e t) := .faults h rfl e.cause_ne_noError hpc hpc

theorem Ending.advance {hlt : Prop} (h : ¬hlt) {s t : State} (hpc : t.pc = s.pc) (hrun : t.run = .running)
    (herr : t.err = s.err) (n : Nat) : Ending hlt s (advance n t) := by
  rw [Machine.advance]
  split
  · exact .runsOn h hrun herr
  · exact .takeException h _ hpc

section
variable {hlt : Prop} {s t : State}

theorem Ending.err_of_running (h : Ending hlt s t) (hrun : t.run = .running) : t.err = s.err := by
  cases h with
  | runsOn _ _ herr => exact herr
  | halts _ hrun' => simp [hrun'] at hrun
  | faults _ hrun' => simp [hrun'] at hrun

theorem Ending.halted_iff (h : Ending hlt s t) : t.run = .halted ↔ hlt := by
  cases h with
  | runsOn hn hrun => simp [hn, hrun]
  | halts hy hrun => simp [hy, hrun]
  | faults hn hrun => simp [hn, hrun]

theorem Ending.of_halted (h : Ending hlt s t) (hrun : t.run = .halted) : t.err = s.err ∧ t.pc = s.pc := by
  cases h with
  | runsOn _ hrun' => simp [hrun'] at hrun
  | halts _ _ herr hpc => exact ⟨herr, hpc⟩
  | faults _ hrun' => simp [hrun'] at hrun

theorem Ending.of_errorHalted (h : Ending hlt s t) (hrun : t.run = .errorHalted) :
    t.err.cause ≠ .noError ∧ t.err.pc = s.pc ∧ t.pc = s.pc := by
  cases h with
  | runsOn _ hrun' => simp [hrun'] at hrun
  | halts _ hrun' => simp [hrun'] at hrun
  | faults _ _ hcause herrPc hpc => exact ⟨hcause, herrPc, hpc⟩

end

/-- An instruction run in RUNNING halts if it is HLT, and otherwise runs on or records an exception at PC. -/
theorem exec_ending {i : Instr} {s t : State} (hr : s.run = .running) (h : exec i s = .next t) :
    Ending (i = .hlt) s t := by
  by_cases hi : i = .hlt
  · subst hi
    obtain rfl := Host.Outcome.next.inj h
    exact .halts rfl rfl rfl rfl
  · obtain ⟨f, hf, rfl⟩ := exec_next h
    cases f with
    | raised e => exact .takeException hi e rfl
    | fallThrough u =>
      obtain ⟨hc, -⟩ := hf
      exact .advance hi hc.pc (hc.run.trans hr) hc.err _
    | taken u p =>
      obtain ⟨hc, -⟩ := hf
      exact .runsOn hi (hc.run.trans hr) hc.err
    | halt u => exact absurd hf.2 hi

/-- A tick in RUNNING halts if the byte at PC is that of HLT, and otherwise runs on or records an exception at
PC, under every opcode map that meets R77. -/
theorem tick_ending {map : OpcodeMap} (hv : map.Valid) {s t : State} (hr : s.run = .running)
    (h : tick map s = .next t) : Ending (s.memRead s.pc = map .hlt) s t := by
  rcases tick_cases hv s with ⟨hn, _⟩ | ⟨_, hl, ht⟩ | ⟨m, _, hm, hover, ht⟩ | ⟨m, _, hm, _, ht⟩
  · exact absurd hr hn
  · obtain rfl := Host.Outcome.next.inj (ht.symm.trans h)
    exact .takeException (fun hop => OpcodeMap.lookup_none.mp hl .hlt hop.symm) _ rfl
  · obtain rfl := Host.Outcome.next.inj (ht.symm.trans h)
    refine .takeException (fun hop => ?_) _ rfl
    obtain rfl := hv.injective _ _ (hm.symm.trans hop)
    exact absurd s.pc.isLt (Nat.not_lt.mpr hover)
  · refine (exec_ending hr (ht.symm.trans h)).congr (Mnemonic.build_eq_hlt_iff.trans ?_)
    exact ⟨fun hi => hi ▸ hm, fun hop => hv.injective _ _ (hm.symm.trans hop)⟩

/-- A run that has ended stays as it is. -/
theorem core_run_ended {s : State} (h : s.ended) (k : Nat) : Sys2Proof.core.run k s = .next s := by
  induction k with
  | zero => rfl
  | succ k ih => rw [run_next k (step_stopped h), ih]

end Sys2Proof.Machine
end

/-! ## The state's statements (10_state) -/

section
namespace Sys2Proof.Claims

open Sys2Proof.Machine

/-- Settles O41: what CMP and the others commit to FL, and two runs that start with another FL. -/
theorem flagsAreWrittenByCompareAndReadByConditionalJumps :
    Obligations.FlagsAreWrittenByCompareAndReadByConditionalJumps := by
  intro i s t h
  refine ⟨fun hi => exec_fl_kept hi h, ?_, fun fl hi => ?_⟩
  · rintro a b rfl
    split
    · next hab => exact exec_cmp_fl_legal hab.1 hab.2 h
    · next hab => exact exec_cmp_fl_illegal hab h
  · obtain ⟨t', ht', ha⟩ := exec_alike s fl s.err s.out (.inl hi) h
    obtain ⟨events, hout, hout'⟩ := ha.out
    refine ⟨t', ht', ?_⟩
    rw [← ha.regs, ← ha.pc, ← ha.run, ← ha.mem, ← ha.err rfl, hout.trans hout'.symm]

/-- Settles O42: the register part of `Confined`. -/
theorem onlyTheNamedRegistersAreWritten : Obligations.OnlyTheNamedRegistersAreWritten :=
  fun _ _ _ r h hr => (exec_confined h).reg r hr

/-- Settles O43: the memory part of `Confined`. -/
theorem onlyTheStoredByteOfMemoryChanges : Obligations.OnlyTheStoredByteOfMemoryChanges :=
  fun _ _ _ x h hx => (exec_confined h).mem x hx

/-- Settles O44: the part of `Confined` about OUT. -/
theorem outGrowsByTheEmittedEvents : Obligations.OutGrowsByTheEmittedEvents :=
  fun _ _ _ h => (exec_confined h).out

/-- Settles O45: each clause is read off the three ends of a tick in RUNNING. -/
theorem runningIsLeftOnlyByHltOrARecordedException :
    Obligations.RunningIsLeftOnlyByHltOrARecordedException := by
  intro s t h
  have ending (hr : s.run = .running) := tick_ending opcodeMap_valid hr h
  exact ⟨fun hn => (Host.Outcome.next.inj ((step_stopped hn).symm.trans h)).symm,
    fun hr => (ending hr).err_of_running, fun hr => (ending hr).halted_iff,
    fun hr => (ending hr).of_halted, fun hr => (ending hr).of_errorHalted⟩

/-- Settles O46: two ticks that start with another ERR and another OUT end alike. -/
theorem noInstructionReadsErrOrOut : Obligations.NoInstructionReadsErrOrOut := by
  intro s t err out h
  obtain ⟨t', ht', ha⟩ := tick_alike s err out opcodeMap h
  obtain ⟨events, hout, hout'⟩ := ha.out
  refine ⟨t', events, ht', ?_, hout, hout'⟩
  rw [← ha.regs, ← ha.pc, ← ha.run, ← ha.mem, ← ha.fl rfl]

/-- Settles O50: the two have the same entries, as these are read off the bytes at addresses below 256. -/
theorem canonicalMemoryIsUnique : Obligations.CanonicalMemoryIsUnique := by
  intro m m' h h' hread
  refine Memory.eq_of_mem_iff h h' fun ⟨k, v⟩ => ?_
  rw [Memory.mem_iff h, Memory.mem_iff h']
  refine and_congr_right fun hk => ?_
  have hk : m.read k = m'.read k := by simpa [Nat.mod_eq_of_lt (show k < 256 from hk)] using hread (.ofNat 8 k)
  rw [hk]

/-- Settles O56: a step that has nothing to do, any number of times. -/
theorem anEndedRunStaysEnded : Obligations.AnEndedRunStaysEnded := fun k _ h => core_run_ended h k

/-- Settles O1: each clause is about a field that reset fixes, or about memory, which it keeps. -/
theorem resetSetsEveryElementAndKeepsMemory : Obligations.ResetSetsEveryElementAndKeepsMemory :=
  fun _ _ _ => ⟨rfl, rfl, rfl, fun _ => rfl, rfl, rfl, fun _ => rfl⟩

/-- Settles O51: the reads after a register write; it replaces `regs` and nothing else. -/
theorem registersAreIndependent : Obligations.RegistersAreIndependent :=
  fun s i _ v => ⟨s.reg_setReg_same i v, s.reg_setReg_other v, rfl⟩

end Sys2Proof.Claims
end

/-! ## SUPPORT of the memory's statements: a tick whose instruction is known, the trace port of a running
state (40_tick_and_dispatch R100, R114), and ST between two legal registers (41_load_store_output R122) -/

section
namespace Sys2Proof.Machine

theorem State.memRead_memWrite_same (s : State) (a v : Byte) : (s.memWrite a v).memRead a = v :=
  (s.memRead_memWrite a a v).trans (if_pos rfl)

theorem State.memRead_memWrite_other (s : State) {a b : Byte} (v : Byte) (h : b ≠ a) :
    (s.memWrite a v).memRead b = s.memRead b :=
  (s.memRead_memWrite a b v).trans (if_neg h)

/-- A step in RUNNING runs the instruction that the bytes at PC decode to. -/
theorem step_decoded {s : State} {i : Instr} {rest : List Byte} (hr : s.run = .running)
    (h : decode (streamBytes s) = .ok (i, rest)) : step s = exec i s := by
  refine step_fetched hr ?_
  rw [decode] at h
  rw [fetchInstr, h]

theorem tracePort_running {s : State} (h : s.run = .running) : tracePort s = some (s.pc, s.memRead s.pc) := by
  rw [tracePort, h]

theorem indexByte_toNat (r : Fin 8) : (BitVec.ofNat 8 r).toNat = r := by
  have hr := r.isLt
  rw [BitVec.toNat_ofNat]
  omega

/-- The byte of an index passes the check (R106). -/
theorem withReg_indexByte (r : Fin 8) (k : Fin 8 → Effect) : withReg (BitVec.ofNat 8 r) k = k r := by
  have hr : (BitVec.ofNat 8 r).toNat < 8 := (indexByte_toNat r).trans_lt r.isLt
  rw [withReg_legal hr]
  exact congrArg k (Fin.ext (indexByte_toNat r))

/-- ST between two registers stores the byte and advances (R122). -/
theorem exec_st_indexBytes (ra rb : Fin 8) (s : State) :
    exec (.st (BitVec.ofNat 8 ra) (BitVec.ofNat 8 rb)) s =
      .next (advance 2 (s.memWrite (s.indirect ra) (s.reg rb))) := by
  rw [exec, execSt, withRegs, withReg_indexByte, withReg_indexByte, complete_fallThrough]

/-- Where PC + 3 exists, a step that runs a ST stays in RUNNING, goes on after the ST, and has stored the
byte. -/
theorem step_st_fits {s : State} {ra rb : Fin 8} {rest : List Byte} (hr : s.run = .running)
    (hpc : s.pc.toNat + 3 ≤ 255)
    (h : decode (streamBytes s) = .ok (.st (BitVec.ofNat 8 ra) (BitVec.ofNat 8 rb), rest)) :
    ∃ t, step s = .next t ∧ t.run = .running ∧ t.pc = s.pc + 3 ∧ t.memRead (s.indirect ra) = s.reg rb := by
  have hadv := advance_fits (n := 2) (s := s.memWrite (s.indirect ra) (s.reg rb)) hpc
  refine ⟨_, (step_decoded hr h).trans (exec_st_indexBytes ra rb s), ?_, ?_, ?_⟩
  · rw [hadv]; exact hr
  · rw [hadv]; rfl
  · rw [State.memRead_advance, State.memRead_memWrite_same]

end Sys2Proof.Machine
end

/-! ## The memory's statements (20_memory) -/

section
namespace Sys2Proof.Claims

open Sys2Proof.Machine

/-- A step in RUNNING at an unassigned byte is the entry of InvalidOpcode with that byte (R103). -/
theorem takes_invalidOpcode {s : State} (hr : s.run = .running)
    (h : opcodeMap.lookup (s.memRead s.pc) = none) :
    Takes (step s) s .invalidOpcode (s.memRead s.pc).toNat := by
  rw [step_fetch_fault hr (fetchInstr_unassigned h)]
  exact takes_takeException _ s (BitVec.ofNat_toNat ..).symm

/-- Settles O52: the ST stores the byte where PC goes, so the next state reads it at PC. -/
theorem nextFetchSeesTheStoredByte : Obligations.NextFetchSeesTheStoredByte := by
  intro s ra rb rest hr hpc hdec haddr
  obtain ⟨t, hstep, hrun, htpc, hstored⟩ := step_st_fits hr hpc hdec
  have hbyte : t.memRead t.pc = s.reg rb := by rw [htpc, ← haddr]; exact hstored
  refine ⟨t, hstep, ?_, fun hnone => ?_⟩
  · rw [tracePort_running hrun, hbyte, htpc]
  · rw [← hbyte] at hnone ⊢
    exact takes_invalidOpcode hrun hnone

/-- Settles O48: the reads after a memory write; it replaces `mem` and nothing else. -/
theorem memoryWriteChangesOneByte : Obligations.MemoryWriteChangesOneByte :=
  fun s a v => ⟨s.memRead_memWrite_same a v, fun _ hx => s.memRead_memWrite_other v hx, rfl⟩

/-- Settles O49, by induction on the writes from the last one: it decides the read at its own address, and is
not seen at another. -/
theorem memoryReadsTheLatestWrite : Obligations.MemoryReadsTheLatestWrite := by
  intro ws s a
  induction ws using List.reverseRecOn with
  | nil => rfl
  | append_singleton ws w ih =>
    rw [List.foldl_concat, List.reverse_concat]
    by_cases hw : w.1 = a
    · rw [List.find?_cons, beq_iff_eq.mpr hw, ← hw]
      exact State.memRead_memWrite_same ..
    · rw [List.find?_cons, beq_false_of_ne hw,
        State.memRead_memWrite_other _ _ (Ne.symm hw)]
      exact ih

end Sys2Proof.Claims
end

/-! ## SUPPORT of the encoding's statements: what the decoder answers, and the bytes an opcode map assigns
(30_encoding R71, R75, R77, R78) -/

section
namespace Sys2Proof

/-- An unassigned opcode byte is rejected whatever follows (R78). -/
theorem decodeWith_unassigned {map : OpcodeMap} {op : Byte} (h : map.lookup op = none) (rest : List Byte) :
    decodeWith map (op :: rest) = .error (.unassigned op) := by
  simp only [decodeWith, h]

/-- What the decoder accepts, under any map: an assigned opcode byte, as many operand bytes as its bits 7:6
say, and the rest (R104). -/
theorem decodeWith_ok {map : OpcodeMap} {bytes rest : List Byte} {i : Instr}
    (h : decodeWith map bytes = .ok (i, rest)) :
    ∃ op m a b, map.lookup op = some m ∧ i = m.build a b ∧
      bytes = op :: ([a, b].take (operandCount op) ++ rest) := by
  unfold decodeWith at h
  split at h
  · cases h
  next op tail =>
    split at h
    · cases h
    next m hm =>
      split at h
      next hc => cases h; exact ⟨op, m, 0, 0, hm, rfl, by simp [hc]⟩
      next a _ hc => cases h; exact ⟨op, m, a, 0, hm, rfl, by simp [hc]⟩
      next a b _ hc => cases h; exact ⟨op, m, a, b, hm, rfl, by simp [hc]⟩
      all_goals cases h

theorem encodeWith_build (map : OpcodeMap) (m : Mnemonic) (a b : Byte) :
    encodeWith map (m.build a b) = map m :: [a, b].take m.format.operandCount := by
  rw [encodeWith, Mnemonic.mnemonic_build, Mnemonic.operandBytes_build]

/-- Under a map that meets R77 the decoder inverts the encoder: the opcode byte is looked up as the mnemonic,
and its bits 7:6 take exactly the operand bytes. -/
theorem decodeWith_encodeWith {map : OpcodeMap} (hv : map.Valid) (i : Instr) (rest : List Byte) :
    decodeWith map (encodeWith map i ++ rest) = .ok (i, rest) := by
  obtain ⟨hbytes, hcount, hbuild⟩ | ⟨a, hbytes, hcount, hbuild⟩ | ⟨a, b, hbytes, hcount, hbuild⟩ :=
    Mnemonic.build_operands i
  all_goals
    simp only [encodeWith, hbytes, List.cons_append, List.nil_append, decodeWith, hv.lookup, hv.count, hcount,
      hbuild]

/-- Under a map that meets R77 what decodes is an encoding. -/
theorem eq_encodeWith_of_decodeWith {map : OpcodeMap} (hv : map.Valid) {bytes rest : List Byte} {i : Instr}
    (h : decodeWith map bytes = .ok (i, rest)) : bytes = encodeWith map i ++ rest := by
  obtain ⟨op, m, a, b, hm, rfl, rfl⟩ := decodeWith_ok h
  obtain rfl := OpcodeMap.lookup_sound hm
  rw [encodeWith_build, hv.count, List.cons_append]

theorem operandCount_eq_div (op : Byte) : operandCount op = op.toNat / 64 := by
  have h := op.isLt
  simp only [operandCount, BitVec.extractLsb_toNat, Nat.shiftRight_eq_div_pow]
  omega

/-- A map that meets R77 assigns no byte from 0xC0 up: bits 7:6 of such a byte are 3, and no format has three
operand bytes (R71, R72). -/
theorem OpcodeMap.Valid.lookup_none_of_ge {map : OpcodeMap} (hv : map.Valid) {op : Byte}
    (hop : 0xC0 ≤ op.toNat) : map.lookup op = none := by
  rw [OpcodeMap.lookup_none]
  rintro m rfl
  have hcount := hv.count m
  have hle := m.format.operandCount_le
  rw [operandCount_eq_div] at hcount
  omega

theorem OpcodeMap.lookup_isSome {map : OpcodeMap} {op : Byte} :
    (map.lookup op).isSome ↔ ∃ m, map m = op := by
  rw [Option.isSome_iff_ne_none, ne_eq, OpcodeMap.lookup_none]
  simp

/-- The assigned bytes are the images of the mnemonics, each once, so there are as many of them. -/
theorem OpcodeMap.Valid.assigned_perm {map : OpcodeMap} (hv : map.Valid) :
    ((List.range 256).filter fun n => (map.lookup (BitVec.ofNat 8 n)).isSome).Perm
      (Mnemonic.all.map fun m => (map m).toNat) := by
  have hinj : Function.Injective fun m => (map m).toNat :=
    fun m m' h => hv.injective m m' (BitVec.eq_of_toNat_eq h)
  have hall : Mnemonic.all.Nodup := by decide
  rw [List.perm_ext_iff_of_nodup (List.nodup_range.filter _) (hall.map hinj)]
  intro n
  simp only [List.mem_filter, List.mem_range, List.mem_map, OpcodeMap.lookup_isSome]
  constructor
  · rintro ⟨hn, m, hm⟩
    exact ⟨m, m.mem_all, by rw [hm, BitVec.toNat_ofNat, Nat.mod_eq_of_lt hn]⟩
  · rintro ⟨m, -, rfl⟩
    exact ⟨(map m).isLt, m, by rw [BitVec.ofNat_toNat, BitVec.setWidth_eq]⟩

end Sys2Proof
end

/-! ## The encoding's statements (30_encoding) -/

section
namespace Sys2Proof.Claims

/-- Settles O12, by the three operand counts an instruction can have. -/
theorem decodeInvertsEncodeForEveryOpcodeMap : Obligations.DecodeInvertsEncodeForEveryOpcodeMap :=
  fun _ hv => decodeWith_encodeWith hv

/-- Settles O13, from what the decoder accepts. -/
theorem decodedBytesAreTheEncoding : Obligations.DecodedBytesAreTheEncoding :=
  fun _ hv _ _ _ => eq_encodeWith_of_decodeWith hv

/-- Settles O14: the assigned bytes are the images of the 32 mnemonics, and bits 7:6 of none of them are 3. -/
theorem unassignedBytesAreRejected : Obligations.UnassignedBytesAreRejected :=
  ⟨opcodeMap_valid.assigned_perm.length_eq, fun _ => opcodeMap_valid.lookup_none_of_ge,
    fun _ rest h => decodeWith_unassigned h rest⟩

/-- Settles O9: the decoder computes these answers. -/
theorem wordsOfTheSpecDecode : Obligations.WordsOfTheSpecDecode :=
  ⟨rfl, rfl, rfl, rfl, rfl, rfl, rfl, rfl⟩

/-- Settles O10: bits 7:6 of 0xFF are 3, which no assigned byte has. -/
theorem defaultOpcodeMapMeetsItsConstraints : Obligations.DefaultOpcodeMapMeetsItsConstraints :=
  ⟨opcodeMap_injective, opcodeMap_count,
    OpcodeMap.lookup_none.mp (opcodeMap_valid.lookup_none_of_ge (by decide))⟩

/-- Settles O11: the operand bytes are as many as the format has, and bits 7:6 hold that number. -/
theorem encodedCountIsTheNumberOfOperandBytes : Obligations.EncodedCountIsTheNumberOfOperandBytes :=
  fun i => ⟨opcodeMap i.mnemonic, rfl, (opcodeMap_count _).trans i.operandBytes_length.symm⟩

end Sys2Proof.Claims
end

/-! ## SUPPORT of the tick's statements: the trace port of a stopped state (40_tick_and_dispatch R101), and an
instruction that falls through, run at two addresses (R109, R110) -/

section
namespace Sys2Proof.Machine

open Sys2Proof.Claims

theorem tracePort_stopped {s : State} (h : s.run ≠ .running) : tracePort s = none := by
  rw [tracePort]
  split
  · contradiction
  · rfl
  · rfl

/-- The effects of one instruction that falls through or raises, run in `s` and in `s` with PC at `q`: both
raise (the reports may differ, as they can hold the byte at PC), or both commit the same but for PC. -/
inductive Effect.Relocated (s : State) (q : Byte) : Effect → Effect → Prop
  | raised (e e' : Exception) : Effect.Relocated s q (.raised e) (.raised e')
  | fallThrough {t : State} (hpc : t.pc = s.pc) :
      Effect.Relocated s q (.fallThrough t) (.fallThrough { t with pc := q })

section
variable {s : State} {q : Byte}

theorem withReg_relocated {a : Byte} {k k' : Fin 8 → Effect} (h : ∀ r, Effect.Relocated s q (k r) (k' r)) :
    Effect.Relocated s q (withReg a k) (withReg a k') := by
  rcases Nat.lt_or_ge a.toNat 8 with ha | ha
  · rw [withReg_legal ha, withReg_legal ha]; exact h _
  · rw [withReg_illegal ha, withReg_illegal ha]; exact .raised _ _

theorem withRegs_relocated {a b : Byte} {k k' : Fin 8 → Fin 8 → Effect}
    (h : ∀ ra rb, Effect.Relocated s q (k ra rb) (k' ra rb)) :
    Effect.Relocated s q (withRegs a b k) (withRegs a b k') :=
  withReg_relocated fun ra => withReg_relocated fun rb => h ra rb

theorem writeResult_relocated (r : Fin 8) (y : Except AluError Byte) :
    Effect.Relocated s q (writeResult s r y) (writeResult { s with pc := q } r y) := by
  cases y with
  | ok v => exact .fallThrough rfl
  | error e => exact .raised _ _

theorem aluTwoSource_relocated (op : AluOp) (a b : Byte) :
    Effect.Relocated s q (aluTwoSource op a b s) (aluTwoSource op a b { s with pc := q }) :=
  withRegs_relocated fun ra _ => writeResult_relocated ra _

theorem aluOneSource_relocated (op : AluOp) (a : Byte) :
    Effect.Relocated s q (aluOneSource op a s) (aluOneSource op a { s with pc := q }) :=
  withReg_relocated fun r => writeResult_relocated r _

theorem jumpWhen_relocated {cond : Bool} (hc : cond = false) (a : Byte) :
    Effect.Relocated s q (jumpWhen cond a s) (jumpWhen cond a { s with pc := q }) := by
  subst hc
  exact withReg_relocated fun _ => .fallThrough rfl

end

/-- What an instruction that falls through commits does not depend on PC: CALL, which stores an address made
from PC, never falls through. -/
theorem exec_effect_relocated (i : Instr) (s : State) (q : Byte) (hseq : leavesSequence i.mnemonic s.fl = false) :
    ∃ f f' : Effect, exec i s = complete i.operandBytes.length s f ∧
      exec i { s with pc := q } = complete i.operandBytes.length { s with pc := q } f' ∧
      Effect.Relocated s q f f' := by
  cases i
  case hlt | ret | call | jmp => cases hseq
  all_goals refine ⟨_, _, rfl, rfl, ?_⟩
  case nop => exact .fallThrough rfl
  case int | iret => exact .raised _ _
  case jeq | jne | jgt | jlt => exact jumpWhen_relocated hseq _
  case add | sub | mul | div | mod | and | or | xor | shl | shr => exact aluTwoSource_relocated ..
  case inc | dec | not => exact aluOneSource_relocated ..
  case ldi | prn | pra | push | pop => exact withReg_relocated fun _ => .fallThrough rfl
  case ld | st | cmp => exact withRegs_relocated fun _ _ => .fallThrough rfl

/-- An instruction that falls through and, at address 0, ends in RUNNING, commits the same effects where its
last byte is at 255, and there the advance past it faults (R110). -/
theorem exec_advance_fault {i : Instr} {s u : State} (hseq : leavesSequence i.mnemonic s.fl = false)
    (hlast : s.pc.toNat + i.operandBytes.length = 255) (h : exec i { s with pc := 0 } = .next u)
    (hu : u.run = .running) :
    exec i s = .next (takeException (.memoryOutOfRange 256) { u with pc := s.pc }) := by
  obtain ⟨f, f', hf, hf', hrel⟩ := exec_effect_relocated i s 0 hseq
  obtain rfl := Host.Outcome.next.inj (hf'.symm.trans h)
  cases hrel with
  | raised e e' => cases hu
  | @fallThrough t hpc =>
    have hn : i.operandBytes.length ≤ 2 := i.operandBytes_length ▸ i.mnemonic.format.operandCount_le
    have hfits : advance i.operandBytes.length { t with pc := 0 } = _ :=
      advance_fits (by show 0 + i.operandBytes.length + 1 ≤ 255; omega)
    have hover : advance i.operandBytes.length t = _ := advance_overflows (by rw [hpc, hlast])
    rw [hf, complete_fallThrough, hover, Effect.finish, hfits, ← hpc]

end Sys2Proof.Machine
end

/-! ## The tick's statements (40_tick_and_dispatch) -/

section
namespace Sys2Proof.Claims

open Sys2Proof.Machine

/-- Settles O6: the two clauses of the default map in the rule for every map. -/
theorem operandFetchTakesExactlyTheCountOrFaults : Obligations.OperandFetchTakesExactlyTheCountOrFaults := by
  intro s m hr hm
  obtain ⟨hmap, -⟩ := tickUnderEveryMapFollowsThatMap
  obtain ⟨-, hassigned⟩ := hmap opcodeMap opcodeMap_valid s hr
  rw [opcodeMap_count]
  exact hassigned m hm.symm

/-- Settles O40: the two runs commit the same effects, and only the advance of the one at 255 faults. -/
theorem advanceFaultKeepsTheEffects : Obligations.AdvanceFaultKeepsTheEffects :=
  fun _ _ _ hseq _ hlast h hu => exec_advance_fault hseq hlast h hu

/-- Settles O3: the fetch gives the instruction that the bytes decode to. -/
theorem stepRunsDecodedInstruction : Obligations.StepRunsDecodedInstruction :=
  fun _ _ _ => step_decoded

/-- Settles O4: the step and the trace port of a stopped state. -/
theorem tickOutsideRunningDoesNothing : Obligations.TickOutsideRunningDoesNothing :=
  fun _ h => ⟨step_stopped h, tracePort_stopped h⟩

/-- Settles O5: the lookup finds no mnemonic for the byte. -/
theorem unassignedOpcodeRaisesInvalidOpcode : Obligations.UnassignedOpcodeRaisesInvalidOpcode :=
  fun _ hr h => takes_invalidOpcode hr (OpcodeMap.lookup_none.mpr h)

/-- Settles O7: the port reads PC and the byte there before any decoding. -/
theorem tracePortShowsPcAndOpcode : Obligations.TracePortShowsPcAndOpcode :=
  fun _ => tracePort_running

/-- Settles O47: a step is the tick of the default map. -/
theorem everyStepAnswersANextState : Obligations.EveryStepAnswersANextState :=
  tick_next opcodeMap_valid

end Sys2Proof.Claims
end

/-! ## SUPPORT of the load, store and output statements: what the rules of the vocabulary say of an instruction
that checks its operands and then falls through (40_tick_and_dispatch R106, R109, R110) -/

section
namespace Sys2Proof.Claims

open Sys2Proof.Machine

/-- The advance ends the tick as `FellThrough` says, from a state whose effects left PC, RUN and ERR alone. -/
theorem fellThrough_advance (n : Nat) {s t : State} (hpc : t.pc = s.pc) (hrun : t.run = s.run)
    (herr : t.err = s.err) : FellThrough (n + 1) s (advance n t) := by
  constructor
  · intro hfits
    rw [advance_fits (hpc ▸ hfits)]
    refine ⟨?_, hrun, herr⟩
    rw [hpc, BitVec.toNat_add, BitVec.toNat_ofNat]
    omega
  · intro hover
    rw [advance_overflows (hpc ▸ hover)]
    exact ⟨hpc, rfl, by rw [takeException_err, hpc]; rfl⟩

/-- Writing a register and then advancing keeps everything that `WritesReg` lists. -/
theorem writesReg_fallThrough (n : Nat) (s : State) (r : Fin 8) (v : Byte) :
    WritesReg (complete n s (.fallThrough (s.setReg r v))) (n + 1) s r v.toNat := by
  refine ⟨_, complete_fallThrough n s _, ?_, fun i hi => ?_, ?_, fun x => ?_, ?_,
    fellThrough_advance n rfl rfl rfl⟩
  · rw [State.reg_advance, State.reg_setReg_same]
  · rw [State.reg_advance, s.reg_setReg_other v (List.ne_of_not_mem_cons hi)]
  · rw [advance_fl, State.setReg_fl]
  · rw [State.memRead_advance, State.memRead_setReg]
  · rw [advance_out, State.setReg_out]

/-- An instruction whose check fails takes the entry of RegisterIndexOutOfRange with the bad byte (R106). -/
theorem takes_badIndex (n : Nat) (s : State) (a : Byte) :
    Takes (complete n s (.raised (.registerIndexOutOfRange a))) s .registerIndexOutOfRange a.toNat :=
  takes_takeException _ s (BitVec.ofNat_toNat ..).symm

/-- A `withReg` instruction follows the one-register rule when its continuation follows the rule's body. -/
theorem oneRegisterRule_of_withReg {op : Byte} {mk : Byte → Instr} {body : State → Fin 8 → Answer → Prop} {n : Nat}
    {k : State → Fin 8 → Effect} (hencode : ∀ a, encode (mk a) = [op, a])
    (hexec : ∀ a s, exec (mk a) s = complete n s (withReg a (k s)))
    (hbody : ∀ s r, body s r (complete n s (k s r))) : OneRegisterRule op mk body := by
  intro a s
  rw [hexec]
  refine ⟨hencode a, fun ha => ?_, fun ha => ?_⟩
  · rw [withReg_legal ha]; exact hbody s _
  · rw [withReg_illegal ha]; exact takes_badIndex n s a

/-- The same of a `withRegs` instruction: operand A is checked before operand B. -/
theorem twoRegisterRule_of_withRegs {op : Byte} {mk : Byte → Byte → Instr}
    {body : State → Fin 8 → Fin 8 → Answer → Prop} {n : Nat} {k : State → Fin 8 → Fin 8 → Effect}
    (hencode : ∀ a b, encode (mk a b) = [op, a, b])
    (hexec : ∀ a b s, exec (mk a b) s = complete n s (withRegs a b (k s)))
    (hbody : ∀ s ra rb, body s ra rb (complete n s (k s ra rb))) : TwoRegisterRule op mk body := by
  intro a b s
  rw [hexec]
  refine ⟨hencode a b, fun ha hb => ?_, fun ha => ?_, fun ha hb => ?_⟩
  · rw [withRegs_legal ha hb]; exact hbody s _ _
  · rw [withRegs_illegal_first ha]; exact takes_badIndex n s a
  · rw [withRegs_illegal_second ha hb]; exact takes_badIndex n s b

/-- An instruction that emits the value of its register and falls through follows the emit rule (R123, R124). -/
theorem emitRule_of_emit {op : Byte} {mk : Byte → Instr} {kind : OutKind} (hencode : ∀ a, encode (mk a) = [op, a])
    (hexec : ∀ a s, exec (mk a) s = complete 1 s (withReg a fun r => .fallThrough (s.emit kind (s.reg r)))) :
    EmitRule op mk kind := by
  refine oneRegisterRule_of_withReg hencode hexec fun s r => ⟨_, complete_fallThrough 1 s _, ?_, fun i _ => ?_, ?_,
    fun x => ?_, fellThrough_advance 1 rfl rfl rfl⟩
  · rw [advance_out, State.emit_out]
  · rw [State.reg_advance, State.reg_emit]
  · rw [advance_fl, State.emit_fl]
  · rw [State.memRead_advance, State.memRead_emit]

end Sys2Proof.Claims
end

/-! ## SUPPORT of the load, store and output statements: a step that runs LDI or PRN below the top of
memory (41_load_store_output R120, R123) -/

section
namespace Sys2Proof.Machine

theorem step_ldi_fits {s : State} {r v : Byte} {rest : List Byte} (hrun : s.run = .running) (hr : r.toNat < 8)
    (hpc : s.pc.toNat + 3 ≤ 255) (h : decode (streamBytes s) = .ok (.ldi r v, rest)) :
    step s = .next { s.setReg ⟨r.toNat, hr⟩ v with pc := s.pc + 3 } := by
  rw [step_decoded hrun h, exec, execLdi, withReg_legal hr, complete_fallThrough]
  exact congrArg _ (advance_fits (n := 2) (s := s.setReg _ v) hpc)

theorem step_prn_fits {s : State} {r : Byte} {rest : List Byte} (hrun : s.run = .running) (hr : r.toNat < 8)
    (hpc : s.pc.toNat + 2 ≤ 255) (h : decode (streamBytes s) = .ok (.prn r, rest)) :
    step s = .next { s.emit .num (s.reg ⟨r.toNat, hr⟩) with pc := s.pc + 2 } := by
  rw [step_decoded hrun h, exec, execPrn, withReg_legal hr, complete_fallThrough]
  exact congrArg _ (advance_fits (n := 1) (s := s.emit .num _) hpc)

end Sys2Proof.Machine
end

/-! ## The load, store and output statements (41_load_store_output) -/

section
namespace Sys2Proof.Claims

open Sys2Proof.Machine

/-- Settles O15: the check of the one register operand, then a register write. -/
theorem loadImmediateWritesTheByte : Obligations.LoadImmediateWritesTheByte := by
  intro a b s
  rw [exec, execLdi]
  refine ⟨rfl, fun ha => ?_, fun ha => ?_⟩
  · rw [withReg_legal ha]; exact writesReg_fallThrough 2 s _ b
  · rw [withReg_illegal ha]; exact takes_badIndex 2 s a

/-- Settles O16: the byte written is read in the state before the write, so `ra` and `rb` may be one register. -/
theorem loadReadsTheByteAtTheAddressRegister : Obligations.LoadReadsTheByteAtTheAddressRegister :=
  twoRegisterRule_of_withRegs (fun _ _ => rfl) (fun _ _ _ => rfl) fun s ra _ => writesReg_fallThrough 2 s ra _

/-- Settles O17: a memory write at the address in the first register, kept by the advance. -/
theorem storeWritesTheByteAtTheAddressRegister : Obligations.StoreWritesTheByteAtTheAddressRegister := by
  refine twoRegisterRule_of_withRegs (fun _ _ => rfl) (fun _ _ _ => rfl) fun s ra rb =>
    ⟨_, complete_fallThrough 2 s _, ?_, fun x hx => ?_, fun i _ => ?_, ?_, ?_, fellThrough_advance 2 rfl rfl rfl⟩
  · rw [State.memRead_advance, State.memRead_memWrite_same]
  · rw [State.memRead_advance, s.memRead_memWrite_other _ hx]
  · rw [State.reg_advance, State.reg_memWrite]
  · rw [advance_fl, State.memWrite_fl]
  · rw [advance_out, State.memWrite_out]

/-- Settles O18: PRN and PRA are one emit rule with two kinds. -/
theorem printsEmitOneEvent : Obligations.PrintsEmitOneEvent :=
  ⟨emitRule_of_emit (fun _ => rfl) fun _ _ => rfl, emitRule_of_emit (fun _ => rfl) fun _ _ => rfl⟩

/-- Settles O53: LDI leaves memory alone, so the second step finds the PRN, which reads the register just
written. -/
theorem loadImmediateThenPrintEmitsTheByte : Obligations.LoadImmediateThenPrintEmitsTheByte := by
  intro s r v rest rest' hrun hr hpc hldi hprn
  have hpc' : (s.pc + 3).toNat + 2 ≤ 255 := by bv_omega
  have hsecond := step_prn_fits (s := { s.setReg ⟨r.toNat, hr⟩ v with pc := s.pc + 3 }) hrun hr hpc' hprn
  refine ⟨_, _, step_ldi_fits hrun hr (by omega) hldi, hsecond, ?_, BitVec.add_assoc s.pc 3 2, hrun⟩
  show s.out ++ [⟨.num, (s.setReg ⟨r.toNat, hr⟩ v).reg ⟨r.toNat, hr⟩⟩] = _
  rw [State.reg_setReg_same]

end Sys2Proof.Claims
end

/-! ## SUPPORT of the arithmetic statements: what the rules of the vocabulary say of an instruction that writes
an ALU result (40_tick_and_dispatch R105, R107) -/

section
namespace Sys2Proof.Machine

theorem AluError.info_exception (op : Byte) (e : AluError) : (e.exception op).info = op.setWidth 9 := by
  cases e <;> rfl

theorem aluApply_div_of_ne_zero (x : Byte) {y : Byte} (h : y ≠ 0) : aluApply .div x y = .ok (x / y) := if_neg h

theorem aluApply_mod_of_ne_zero (x : Byte) {y : Byte} (h : y ≠ 0) : aluApply .mod x y = .ok (x % y) := if_neg h

end Sys2Proof.Machine
end

section
namespace Sys2Proof.Claims

open Sys2Proof.Machine

/-- A result of the ALU is written to the destination (R105). -/
theorem writesReg_writeResult (n : Nat) (s : State) (r : Fin 8) {y : Except AluError Byte} {v : Byte} {value : Nat}
    (hy : y = .ok v) (hv : v.toNat = value) : WritesReg (complete n s (writeResult s r y)) (n + 1) s r value := by
  subst hy hv
  exact writesReg_fallThrough n s r v

/-- An error of the ALU is taken as its exception, which reports the opcode byte of the tick (R182). -/
theorem takes_writeResult (n : Nat) (s : State) (r : Fin 8) {y : Except AluError Byte} {e : AluError}
    (hy : y = .error e) :
    Takes (complete n s (writeResult s r y)) s (e.exception s.opcode).cause (opByte s).toNat := by
  subst hy
  refine takes_takeException _ s ((e.info_exception _).trans ?_)
  rw [BitVec.ofNat_toNat]
  rfl

/-- An instruction of the class "ALU, two sources" whose operation never fails follows the two-source rule. -/
theorem twoSourceRule_of_aluApply {op : Byte} {mk : Byte → Byte → Instr} {alu : AluOp} {f : Byte → Byte → Byte}
    {value : Nat → Nat → Nat} (hencode : ∀ a b, encode (mk a b) = [op, a, b])
    (hexec : ∀ a b s, exec (mk a b) s = complete 2 s (aluTwoSource alu a b s))
    (halu : ∀ x y, aluApply alu x y = .ok (f x y)) (hf : ∀ x y, (f x y).toNat = value x.toNat y.toNat) :
    TwoSourceRule op mk value :=
  twoRegisterRule_of_withRegs hencode hexec fun s ra _ => writesReg_writeResult 2 s ra (halu _ _) (hf _ _)

/-- One whose operation fails with `e` exactly when the second value is 0 follows the rule of division. -/
theorem divideRule_of_aluApply {op : Byte} {mk : Byte → Byte → Instr} {alu : AluOp} {f : Byte → Byte → Byte}
    {value : Nat → Nat → Nat} {e : AluError} {cause : Cause} (hencode : ∀ a b, encode (mk a b) = [op, a, b])
    (hexec : ∀ a b s, exec (mk a b) s = complete 2 s (aluTwoSource alu a b s))
    (halu : ∀ x y, y ≠ 0 → aluApply alu x y = .ok (f x y)) (hf : ∀ x y, (f x y).toNat = value x.toNat y.toNat)
    (hzero : ∀ x, aluApply alu x 0 = .error e) (hcause : ∀ b, (e.exception b).cause = cause) :
    DivideRule op mk cause value := by
  refine twoRegisterRule_of_withRegs hencode hexec fun s ra rb => ⟨fun hne => ?_, fun h0 => ?_⟩
  · exact writesReg_writeResult 2 s ra (halu _ _ hne) (hf _ _)
  · rw [← hcause s.opcode, h0]
    exact takes_writeResult 2 s ra (hzero _)

/-- An instruction of the class "ALU, one source" whose operation never fails follows the one-source rule. -/
theorem oneSourceRule_of_aluApply {op : Byte} {mk : Byte → Instr} {alu : AluOp} {f : Byte → Byte} {value : Nat → Nat}
    (hencode : ∀ a, encode (mk a) = [op, a])
    (hexec : ∀ a s, exec (mk a) s = complete 1 s (aluOneSource alu a s))
    (halu : ∀ x, aluApply alu x 0 = .ok (f x)) (hf : ∀ x, (f x).toNat = value x.toNat) :
    OneSourceRule op mk value :=
  oneRegisterRule_of_withReg hencode hexec fun s r => writesReg_writeResult 1 s r (halu _) (hf _)

end Sys2Proof.Claims
end

/-! ## The arithmetic statements (42_alu_arithmetic) -/

section
namespace Sys2Proof.Claims

open Sys2Proof.Machine

/-- Settles O19: the three operations never fail, and are the byte operations of R131 to R133. -/
theorem addSubMulStoreTheResultModulo256 : Obligations.AddSubMulStoreTheResultModulo256 :=
  ⟨twoSourceRule_of_aluApply (fun _ _ => rfl) (fun _ _ _ => rfl) (fun _ _ => rfl) alu_add_toNat,
    twoSourceRule_of_aluApply (fun _ _ => rfl) (fun _ _ _ => rfl) (fun _ _ => rfl) alu_sub_toNat,
    twoSourceRule_of_aluApply (fun _ _ => rfl) (fun _ _ _ => rfl) (fun _ _ => rfl) alu_mul_toNat⟩

/-- Settles O20: DIV and MOD are one rule; the quotient and remainder of bytes are those of their values. -/
theorem divModStoreQuotientAndRemainderOrRaise : Obligations.DivModStoreQuotientAndRemainderOrRaise :=
  ⟨divideRule_of_aluApply (fun _ _ => rfl) (fun _ _ _ => rfl) (fun x _ => aluApply_div_of_ne_zero x)
      (fun _ _ => BitVec.toNat_udiv) (fun _ => rfl) fun _ => rfl,
    divideRule_of_aluApply (fun _ _ => rfl) (fun _ _ _ => rfl) (fun x _ => aluApply_mod_of_ne_zero x)
      (fun _ _ => BitVec.toNat_umod) (fun _ => rfl) fun _ => rfl⟩

/-- Settles O21: INC adds the byte 1 and DEC subtracts it, and neither fails. -/
theorem incDecStoreTheNewValue : Obligations.IncDecStoreTheNewValue :=
  ⟨oneSourceRule_of_aluApply (fun _ => rfl) (fun _ _ => rfl) (fun _ => rfl) fun x => alu_add_toNat x 1,
    oneSourceRule_of_aluApply (fun _ => rfl) (fun _ _ => rfl) (fun _ => rfl) fun x => alu_sub_toNat x 1⟩

end Sys2Proof.Claims
end

/-! ## SUPPORT of the logic, shift and compare statements: the outcomes of a compare and the flags it leaves (R147), the
bitwise rule of an ALU operation (R141 to R143), and the jump rule of a conditional transfer (44_jumps R150) -/

section
namespace Sys2Proof.Machine

theorem aluCompare_of_eq {x y : Byte} (h : x.toNat = y.toNat) : aluCompare x y = 0b001 := if_pos h

theorem aluCompare_of_gt {x y : Byte} (h : x.toNat > y.toNat) : aluCompare x y = 0b010 :=
  (if_neg h.ne').trans (if_pos h)

theorem aluCompare_of_lt {x y : Byte} (h : x.toNat < y.toNat) : aluCompare x y = 0b100 :=
  (if_neg h.ne).trans (if_neg h.not_gt)

end Sys2Proof.Machine
end

section
namespace Sys2Proof.Claims

open Sys2Proof.Machine

/-- An instruction of the class "ALU, two sources" whose result has every bit `k` made of the two source bits `k`
follows the bitwise rule. -/
theorem bitwiseRule_of_aluApply {op : Byte} {mk : Byte → Byte → Instr} {alu : AluOp} {f : Byte → Byte → Byte}
    {bit : Bool → Bool → Bool} (hencode : ∀ a b, encode (mk a b) = [op, a, b])
    (hexec : ∀ a b s, exec (mk a b) s = complete 2 s (aluTwoSource alu a b s))
    (halu : ∀ x y, aluApply alu x y = .ok (f x y))
    (hbit : ∀ x y k, (f x y).getLsbD k = bit (x.getLsbD k) (y.getLsbD k)) : BitwiseRule op mk bit :=
  twoRegisterRule_of_withRegs hencode hexec fun s ra _ =>
    ⟨_, fun k _ => hbit _ _ k, writesReg_writeResult 2 s ra (halu _ _) rfl⟩

/-- An instruction that jumps on a condition of FL follows the jump rule: it commits the state as it is, and the
condition decides between the target and the fall-through. -/
theorem jumpRule_of_jumpWhen {op : Byte} {mk : Byte → Instr} {cond : Byte → Bool} (hencode : ∀ a, encode (mk a) = [op, a])
    (hexec : ∀ a s, exec (mk a) s = complete 1 s (jumpWhen (cond s.fl) a s)) : JumpRule op mk cond := by
  refine oneRegisterRule_of_withReg hencode hexec fun s r => ?_
  cases hcond : cond s.fl with
  | true =>
    exact ⟨_, complete_taken 1 s s _, fun _ _ => rfl, rfl, fun _ => rfl, rfl, fun _ => ⟨rfl, rfl, rfl⟩, nofun⟩
  | false =>
    exact ⟨_, complete_fallThrough 1 s s, fun i _ => s.reg_advance 1 i, advance_fl 1 s, s.memRead_advance 1,
      advance_out 1 s, nofun, fun _ => fellThrough_advance 1 rfl rfl rfl⟩

/-- What the jump rule says of PC for a legal register that holds `target`, where the next address `next` exists. -/
theorem JumpRule.pc_of_legal {op : Byte} {mk : Byte → Instr} {cond : Byte → Bool} (h : JumpRule op mk cond) {r : Byte}
    {t : State} (hr : r.toNat < 8) {target : Byte} (htarget : t.reg ⟨r.toNat, hr⟩ = target) {next : Nat}
    (hnext : t.pc.toNat + 2 = next) (hpc : next ≤ 255) {c : Prop} (hc : cond t.fl = true ↔ c) :
    ∃ u, exec (mk r) t = .next u ∧ (c → u.pc = target) ∧ (¬c → u.pc.toNat = next) := by
  subst htarget hnext
  obtain ⟨-, hlegal, -⟩ := h r t
  obtain ⟨u, hu, -, -, -, -, htaken, hfell⟩ := hlegal hr
  refine ⟨u, hu, fun hyes => (htaken (hc.mpr hyes)).1, fun hno => ?_⟩
  obtain ⟨hfits, -⟩ := hfell (Bool.eq_false_iff.mpr (mt hc.mp hno))
  exact (hfits hpc).1

/-! The flag each conditional jump tests (R152 to R155). -/

theorem jumpRule_jeq : JumpRule 0x51 .jeq fun fl => fl.getLsbD 0 := jumpRule_of_jumpWhen (fun _ => rfl) fun _ _ => rfl

theorem jumpRule_jne : JumpRule 0x52 .jne fun fl => !fl.getLsbD 0 := jumpRule_of_jumpWhen (fun _ => rfl) fun _ _ => rfl

theorem jumpRule_jgt : JumpRule 0x54 .jgt fun fl => fl.getLsbD 1 := jumpRule_of_jumpWhen (fun _ => rfl) fun _ _ => rfl

theorem jumpRule_jlt : JumpRule 0x53 .jlt fun fl => fl.getLsbD 2 := jumpRule_of_jumpWhen (fun _ => rfl) fun _ _ => rfl

/-- An FL that holds the one flag of the order of two numbers answers each test of a flag with that order (R29, R147). -/
theorem flags_tell_order {fl : Byte} {x y : Nat} (heq : x = y → fl = 0b00000001) (hgt : x > y → fl = 0b00000010)
    (hlt : x < y → fl = 0b00000100) :
    (fl.getLsbD 0 = true ↔ x = y) ∧ (fl.getLsbD 1 = true ↔ x > y) ∧ (fl.getLsbD 2 = true ↔ x < y) := by
  rcases Nat.lt_trichotomy x y with h | h | h
  · simp [hlt h, h, h.ne, h.le]
  · simp [heq h, h]
  · simp [hgt h, h, h.ne', h.le]

end Sys2Proof.Claims
end

/-! ## The logic, shift and compare statements (43_alu_logic_shift_compare) -/

section
namespace Sys2Proof.Claims

open Sys2Proof.Machine

/-- Settles O22: AND, OR and XOR never fail and act on each bit; the complement of a byte is 255 minus it. -/
theorem logicWorksBitByBit : Obligations.LogicWorksBitByBit :=
  ⟨bitwiseRule_of_aluApply (fun _ _ => rfl) (fun _ _ _ => rfl) (fun _ _ => rfl) fun _ _ _ => BitVec.getLsbD_and,
    bitwiseRule_of_aluApply (fun _ _ => rfl) (fun _ _ _ => rfl) (fun _ _ => rfl) fun _ _ _ => BitVec.getLsbD_or,
    bitwiseRule_of_aluApply (fun _ _ => rfl) (fun _ _ _ => rfl) (fun _ _ => rfl) fun _ _ _ => BitVec.getLsbD_xor,
    oneSourceRule_of_aluApply (fun _ => rfl) (fun _ _ => rfl) (fun _ => rfl) fun _ => BitVec.toNat_not⟩

/-- Settles O23: both shifts never fail, and their amount is the whole second byte. -/
theorem shiftsUseTheWholeAmount : Obligations.ShiftsUseTheWholeAmount :=
  ⟨twoSourceRule_of_aluApply (fun _ _ => rfl) (fun _ _ _ => rfl) (fun _ _ => rfl) shiftLeft_toNat,
    twoSourceRule_of_aluApply (fun _ _ => rfl) (fun _ _ _ => rfl) (fun _ _ => rfl) shiftRight_toNat⟩

/-- Settles O24: the three outcomes of the compare are the three orders of the values, and the flag write replaces
all of FL. -/
theorem compareSetsExactlyOneFlag : Obligations.CompareSetsExactlyOneFlag := by
  refine twoRegisterRule_of_withRegs (fun _ _ => rfl) (fun _ _ _ => rfl) fun s ra rb => ?_
  have hfl : (advance 2 (s.writeFlags (aluCompare (s.reg ra) (s.reg rb)))).fl =
      (aluCompare (s.reg ra) (s.reg rb)).setWidth 8 := by rw [advance_fl, State.writeFlags_fl]
  refine ⟨_, complete_fallThrough 2 s _, fun h => ?_, fun h => ?_, fun h => ?_, fun i _ => ?_, fun x => ?_, ?_,
    fellThrough_advance 2 rfl rfl rfl⟩
  · rw [hfl, aluCompare_of_eq h]; rfl
  · rw [hfl, aluCompare_of_gt h]; rfl
  · rw [hfl, aluCompare_of_lt h]; rfl
  · rw [State.reg_advance, State.reg_writeFlags]
  · rw [State.memRead_advance, State.memRead_writeFlags]
  · rw [advance_out, State.writeFlags_out]

/-- Settles O27: CMP leaves the flag of the order and PC + 3, and each conditional jump tests one flag of it. -/
theorem jumpAfterCompareFollowsTheUnsignedOrder : Obligations.JumpAfterCompareFollowsTheUnsignedOrder := by
  intro a b r s ha hb hr hpc
  obtain ⟨-, hlegal, -⟩ := compareSetsExactlyOneFlag a b s
  obtain ⟨t, ht, heq, hgt, hlt, hregs, -, -, hfits, -⟩ := hlegal ha hb
  obtain ⟨hpct, -⟩ := hfits (by omega)
  obtain ⟨hE, hG, hL⟩ := flags_tell_order heq hgt hlt
  have hNE : (!t.fl.getLsbD 0) = true ↔ (s.reg ⟨a.toNat, ha⟩).toNat ≠ (s.reg ⟨b.toNat, hb⟩).toNat := by
    rw [Ne, ← hE, Bool.not_eq_true', Bool.not_eq_true]
  have hreg : t.reg ⟨r.toNat, hr⟩ = s.reg ⟨r.toNat, hr⟩ := hregs _ List.not_mem_nil
  have hnext : t.pc.toNat + 2 = s.pc.toNat + 5 := by omega
  exact ⟨t, ht, jumpRule_jeq.pc_of_legal hr hreg hnext hpc hE, jumpRule_jne.pc_of_legal hr hreg hnext hpc hNE,
    jumpRule_jgt.pc_of_legal hr hreg hnext hpc hG, jumpRule_jlt.pc_of_legal hr hreg hnext hpc hL⟩

end Sys2Proof.Claims
end

/-! ## The jump statements (44_jumps) -/

section
namespace Sys2Proof.Claims

open Sys2Proof.Machine

/-- Settles O25: JMP is the jump whose condition holds of every FL. -/
theorem jumpGoesToTheRegister : Obligations.JumpGoesToTheRegister :=
  jumpRule_of_jumpWhen (fun _ => rfl) fun _ _ => rfl

/-- Settles O26: one jump rule for each conditional jump, with the flag it tests. -/
theorem conditionalJumpsTestTheirFlag : Obligations.ConditionalJumpsTestTheirFlag :=
  ⟨jumpRule_jeq, jumpRule_jne, jumpRule_jgt, jumpRule_jlt⟩

end Sys2Proof.Claims
end

/-! ## SUPPORT of the stack and subroutine statements: R7 after a change of the stack pointer (R160), the return
address of CALL (R163), and what PUSH and CALL have in common -/

section
namespace Sys2Proof.Machine

theorem State.reg_decSp_sp (s : State) : s.decSp.reg 7 = s.pushAddr := s.reg_decSp 7

theorem State.reg_decSp_other (s : State) {r : Fin 8} (h : r ≠ 7) : s.decSp.reg r = s.reg r :=
  (s.reg_decSp r).trans (if_neg h)

/-- A register read after the decrement is R7's new value or an unchanged one (R161, R163). -/
theorem State.reg_decSp_eq_ite (s : State) (r : Fin 8) :
    s.decSp.reg r = if r = 7 then s.decSp.reg 7 else s.reg r := by
  split
  · next h => rw [h]
  · next h => exact s.reg_decSp_other h

theorem State.reg_incSp_sp (s : State) : s.incSp.reg 7 = s.reg 7 + 1 := s.reg_incSp 7

theorem State.reg_incSp_other (s : State) {r : Fin 8} (h : r ≠ 7) : s.incSp.reg r = s.reg r :=
  (s.reg_incSp r).trans (if_neg h)

theorem State.pushAddr_toNat (s : State) : s.pushAddr.toNat = ((s.reg 7).toNat + 255) % 256 :=
  alu_sub_toNat (s.reg 7) 1

/-- The byte above the address of a push is the old stack pointer, across the wrap too. -/
theorem State.eq_reg_of_toNat_eq_pushAddr_succ (s : State) {x : Byte} (h : x.toNat = (s.pushAddr.toNat + 1) % 256) :
    x = s.reg 7 := by
  have hlt := (s.reg 7).isLt
  rw [s.pushAddr_toNat] at h
  exact BitVec.eq_of_toNat_eq (by omega)

/-- An operand byte other than 7 is the index of a register other than R7. -/
theorem index_ne_sp {a : Byte} (ha : a.toNat < 8) (h : a ≠ 7) : (⟨a.toNat, ha⟩ : Fin 8) ≠ 7 := fun hidx =>
  have hval : a.toNat = (7 : Byte).toNat := congrArg (fun r : Fin 8 => r.val) hidx
  h (BitVec.eq_of_toNat_eq hval)

theorem returnAddr_fits_iff (s : State) : (returnAddr s).toNat < Config.memSize ↔ s.pc.toNat + 2 ≤ 255 := by
  rw [returnAddr_toNat]
  exact Nat.lt_succ_iff

theorem returnAddr_byte_toNat {s : State} (h : s.pc.toNat + 2 ≤ 255) :
    ((returnAddr s).setWidth 8).toNat = s.pc.toNat + 2 := by
  rw [BitVec.toNat_setWidth, returnAddr_toNat]
  omega

theorem returnAddr_eq_256 {s : State} (h : s.pc.toNat + 2 = 256) : returnAddr s = 256 :=
  BitVec.eq_of_toNat_eq ((returnAddr_toNat s).trans h)

end Sys2Proof.Machine
end

section
namespace Sys2Proof.Claims

open Sys2Proof.Machine

/-- `t` is `s` after a push of `v`, as far as registers and memory go: R7 is one lower, `v` is at the new R7, and
nothing else changed. -/
structure Pushed (v : Byte) (s t : State) : Prop where
  sp : t.reg 7 = s.pushAddr
  regs : RegsKept [7] s t
  stored : t.memRead s.pushAddr = v
  mem : MemKeptBut s.pushAddr s t

/-- The decrement and the store make a push, whatever happens to the rest of the state. -/
theorem pushed_of_decSp_memWrite {v : Byte} {s t : State} (hregs : t.regs = s.decSp.regs)
    (hmem : t.mem = (s.decSp.memWrite s.pushAddr v).mem) : Pushed v s t := by
  have hreg (r : Fin 8) : t.reg r = s.decSp.reg r := by rw [State.reg, hregs]; rfl
  have hread (x : Byte) : t.memRead x = (s.decSp.memWrite s.pushAddr v).memRead x := by rw [State.memRead, hmem]; rfl
  constructor
  case sp => rw [hreg, s.reg_decSp_sp]
  case regs => exact fun r hr => (hreg r).trans (s.reg_decSp_other (List.ne_of_not_mem_cons hr))
  case stored => rw [hread, State.memRead_memWrite_same]
  case mem => exact fun x hx => (hread x).trans (s.decSp.memRead_memWrite_other v hx)

/-- Two instructions that use the stack, and leave R7 as they found it, keep what the second keeps besides R7. -/
theorem RegsKept.through_stack {ws : List (Fin 8)} {s t u : State} (hfirst : RegsKept [7] s t)
    (hsecond : RegsKept (ws ++ [7]) t u) (hsp : u.reg 7 = s.reg 7) : RegsKept ws s u := by
  intro i hi
  by_cases h7 : i = 7
  · rw [h7, hsp]
  · have h7' : i ∉ [7] := mt List.mem_singleton.mp h7
    have hboth : i ∉ ws ++ [7] := fun h => (List.mem_append.mp h).elim hi h7'
    rw [hsecond i hboth, hfirst i h7']

end Sys2Proof.Claims
end

/-! ## The stack and subroutine statements (45_stack_and_subroutine) -/

section
namespace Sys2Proof.Claims

open Sys2Proof.Machine

/-- Settles O28: a push of the register as it reads after the decrement, then the advance. -/
theorem pushStoresBelowTheStackPointer : Obligations.PushStoresBelowTheStackPointer := by
  refine oneRegisterRule_of_withReg (fun _ => rfl) (fun _ _ => rfl) fun s r => ?_
  have hpush : Pushed (s.decSp.reg r) s (advance 1 (s.decSp.memWrite s.pushAddr (s.decSp.reg r))) :=
    pushed_of_decSp_memWrite (advance_regs ..) (advance_mem ..)
  refine ⟨_, complete_fallThrough 1 s _, ?_, hpush.regs, ?_, hpush.sp, hpush.mem, advance_fl .., advance_out ..,
    fellThrough_advance 1 rfl rfl rfl⟩
  · rw [hpush.sp, s.pushAddr_toNat]
  · rw [hpush.stored, hpush.sp, s.reg_decSp_eq_ite, s.reg_decSp_sp]

/-- Settles O29: the register is written before the increment, so the increment sees the popped byte when the
register is R7 and the old stack pointer otherwise. -/
theorem popLoadsAtTheStackPointer : Obligations.PopLoadsAtTheStackPointer := by
  refine oneRegisterRule_of_withReg (fun _ => rfl) (fun _ _ => rfl) fun s r =>
    ⟨_, complete_fallThrough 1 s _, fun hr => ⟨?_, ?_⟩, fun hr => ?_, fun i hi => ?_, fun x => ?_, advance_fl ..,
      advance_out .., fellThrough_advance 1 rfl rfl rfl⟩
  · rw [State.reg_advance, State.reg_incSp_other _ hr, State.reg_setReg_same]; rfl
  · rw [State.reg_advance, State.reg_incSp_sp, s.reg_setReg_other _ hr.symm, alu_add_toNat]; rfl
  · rw [hr, State.reg_advance, State.reg_incSp_sp, State.reg_setReg_same, alu_add_toNat]; rfl
  · have hr : i ≠ r := List.ne_of_not_mem_cons hi
    have h7 : i ≠ 7 := List.ne_of_not_mem_cons (List.not_mem_of_not_mem_cons hi)
    rw [State.reg_advance, State.reg_incSp_other _ h7, s.reg_setReg_other _ hr]
  · rw [State.memRead_advance, State.memRead_incSp, State.memRead_setReg]

/-- Settles O30: where the return address is a byte, CALL is a push of it and a jump to the register as it reads after
the decrement; at 254 the check fails before the push. -/
theorem callPushesTheReturnAddress : Obligations.CallPushesTheReturnAddress := by
  refine oneRegisterRule_of_withReg (fun _ => rfl) (fun _ _ => rfl) fun s r => ⟨fun hpc => ?_, fun hpc => ?_⟩
  · rw [if_pos ((returnAddr_fits_iff s).mpr hpc)]
    have hpush : Pushed ((returnAddr s).setWidth 8) s
        { s.decSp.memWrite s.pushAddr ((returnAddr s).setWidth 8) with pc := s.decSp.indirect r } :=
      pushed_of_decSp_memWrite rfl rfl
    refine ⟨_, complete_taken 1 s _ _, ?_, hpush.regs, ?_, hpush.sp, hpush.mem, rfl, rfl, ?_, rfl, rfl⟩
    · rw [hpush.sp, s.pushAddr_toNat]
    · rw [hpush.stored, returnAddr_byte_toNat hpc]
    · rw [hpush.sp, ← s.reg_decSp_sp]
      exact s.reg_decSp_eq_ite r
  · rw [if_neg (mt (returnAddr_fits_iff s).mp (by omega)), complete_raised]
    exact takes_takeException _ s (returnAddr_eq_256 hpc)

/-- Settles O31: RET is a taken transfer to the byte at R7, so it neither advances nor checks an address. -/
theorem returnPopsThePc : Obligations.ReturnPopsThePc := by
  refine ⟨rfl, fun s => ⟨_, complete_taken 0 s _ _, ⟨rfl, rfl, rfl⟩, ?_, fun i hi => ?_, fun _ => rfl, rfl, rfl⟩⟩
  · exact (congrArg BitVec.toNat s.reg_incSp_sp).trans (alu_add_toNat _ 1)
  · exact s.reg_incSp_other (List.ne_of_not_mem_cons hi)

/-- Settles O32: POP reads where PUSH stored, and its increment undoes the decrement. -/
theorem popAfterPushRestoresTheStackPointer : Obligations.PopAfterPushRestoresTheStackPointer := by
  intro a b s ha hb ha7 hb7 hpc
  obtain ⟨-, hpush, -⟩ := pushStoresBelowTheStackPointer a s
  obtain ⟨t, ht, -, hregs, hstored, hsp, -, -, -, hfits, -⟩ := hpush ha
  obtain ⟨-, hpop, -⟩ := popLoadsAtTheStackPointer b t
  obtain ⟨u, hu, hloads, -, hregs', -, -, -, hfits', -⟩ := hpop hb
  obtain ⟨hload, hinc⟩ := hloads (index_ne_sp hb hb7)
  obtain ⟨hpct, -⟩ := hfits (by omega)
  obtain ⟨hpcu, -⟩ := hfits' (by omega)
  have hback : u.reg 7 = s.reg 7 := s.eq_reg_of_toNat_eq_pushAddr_succ (hsp ▸ hinc)
  refine ⟨t, u, ht, hu, ?_, hback, hregs.through_stack hregs' hback, by omega⟩
  rw [hload, hsp, hstored, if_neg (index_ne_sp ha ha7)]

/-- Settles O33: RET reads the return address where CALL stored it, and its increment undoes the decrement. -/
theorem returnAfterCallComesBack : Obligations.ReturnAfterCallComesBack := by
  intro a s ha hpc
  obtain ⟨-, hcall, -⟩ := callPushesTheReturnAddress a s
  obtain ⟨hfits, -⟩ := hcall ha
  obtain ⟨t, ht, -, hregs, hstored, hsp, hmem, -⟩ := hfits hpc
  obtain ⟨-, hret⟩ := returnPopsThePc
  obtain ⟨u, hu, ⟨hpcu, -⟩, hinc, hregs', hmem', -⟩ := hret t
  have hback : u.reg 7 = s.reg 7 := s.eq_reg_of_toNat_eq_pushAddr_succ (hsp ▸ hinc)
  refine ⟨t, u, ht, hu, ?_, hregs.through_stack hregs' hback, fun x hx => ?_⟩
  · rw [hpcu, hsp, hstored]
  · rw [hmem' x, hmem x hx]

end Sys2Proof.Claims
end

/-! ## SUPPORT of the system statements: the instructions that have no meaning but an exception (46_system R172,
R173) -/

section
namespace Sys2Proof.Claims

open Sys2Proof.Machine

/-- INT and IRET, of whatever length, take the entry of UnimplementedInstruction with the opcode byte of the tick. -/
theorem takes_unimplemented (n : Nat) (s : State) :
    Takes (complete n s (.raised (.unimplementedInstruction s.opcode))) s .unimplementedInstruction
      (opByte s).toNat :=
  takes_takeException _ s (BitVec.ofNat_toNat ..).symm

end Sys2Proof.Claims
end

/-! ## The system statements (46_system) -/

section
namespace Sys2Proof.Claims

open Sys2Proof.Machine

/-- Settles O34: NOP commits nothing and advances, and the advance keeps all but PC, RUN and ERR. -/
theorem nopOnlyAdvances : Obligations.NopOnlyAdvances :=
  ⟨rfl, fun s => ⟨_, complete_fallThrough 0 s s, fun i _ => s.reg_advance 0 i, advance_fl 0 s,
    fun x => s.memRead_advance 0 x, advance_out 0 s, fellThrough_advance 0 rfl rfl rfl⟩⟩

/-- Settles O35: HLT changes RUN alone, and a step outside RUNNING does nothing. -/
theorem haltStopsAtItsOwnAddress : Obligations.HaltStopsAtItsOwnAddress := by
  refine ⟨rfl, fun s => ⟨_, complete_halt 0 s s, rfl, rfl, rfl, fun _ _ => rfl, rfl, fun _ => rfl, rfl, ?_⟩⟩
  have hended : RunState.halted ≠ .running := by decide
  exact step_stopped hended

/-- Settles O36: both instructions raise the same exception; the steps are those of the default map, under which INT
takes one operand byte, that does not exist where PC is 255, and IRET none. -/
theorem intAndIretAreUnimplemented : Obligations.IntAndIretAreUnimplemented := by
  obtain ⟨hreported, -⟩ := reportedOpcodeIsTheByteOfTheMap
  refine ⟨fun _ => rfl, rfl, fun _ s => takes_unimplemented 1 s, takes_unimplemented 0, fun s hrun => ?_⟩
  obtain ⟨-, -, hint, hiret⟩ := hreported opcodeMap opcodeMap_valid s hrun
  refine ⟨fun hop hpc => hint hop (by bv_omega), fun hop hpc => ?_, hiret⟩
  obtain ⟨-, hover⟩ := operandFetchTakesExactlyTheCountOrFaults s .int hrun hop
  refine hover ?_
  rw [hpc, opcodeMap_count]
  decide

end Sys2Proof.Claims
end

/-! ## SUPPORT of the exceptions' statements: the checks an instruction makes when it executes, as rows of the table
of R187, and the effect of every instruction told by the first of them that fires (60_exceptions) -/

section
namespace Sys2Proof.Claims

open Sys2Proof.Machine

/-! ### The first row that fires -/

theorem firstFault_cons (fires : Bool) (x : Cause × Nat) (rows : List FaultRow) :
    firstFault ((fires, x) :: rows) = if fires then some x else firstFault rows := by
  cases fires <;> rfl

theorem firstFault_append (rows rows' : List FaultRow) :
    firstFault (rows ++ rows') = (firstFault rows).or (firstFault rows') := by
  simp [firstFault, List.find?_append, Option.map_or]

theorem mem_of_firstFault {rows : List FaultRow} {x : Cause × Nat} (h : firstFault rows = some x) :
    (true, x) ∈ rows := by
  obtain ⟨⟨fires, _⟩, hfind, rfl⟩ := Option.map_eq_some_iff.mp h
  obtain rfl : fires = true := List.find?_some hfind
  exact List.mem_of_find?_eq_some hfind

/-! ### The rows of an instruction (R106, R182, R163, R172, R173) -/

/-- The row of an index check (R106). -/
def indexRow (b : Byte) : FaultRow := (decide (8 ≤ b.toNat), .registerIndexOutOfRange, b.toNat)

/-- The check an instruction makes after those of its operands. CALL reports its return address, which is 256 where
the bytes of the CALL exist. -/
def ownRows (i : Instr) (s : State) : List FaultRow :=
  match i with
  | .int _ | .iret => [(true, .unimplementedInstruction, (opByte s).toNat)]
  | .div _ b => [(operandValue s b == 0, .divisionByZero, (opByte s).toNat)]
  | .mod _ b => [(operandValue s b == 0, .moduloByZero, (opByte s).toNat)]
  | .call _ => [(decide (255 < s.pc.toNat + 2), .memoryOutOfRange, s.pc.toNat + 2)]
  | _ => []

/-- The checks `exec i` makes before its first write, in order. `firstFault_assignedRows` says that they are those of
the table. -/
def executionRows (i : Instr) (s : State) : List FaultRow := (checkedOperands i).map indexRow ++ ownRows i s

theorem firstFault_map_indexRow (operands : List Byte) :
    firstFault (operands.map indexRow) =
      (operands.find? fun b => decide (8 ≤ b.toNat)).map fun b => (.registerIndexOutOfRange, b.toNat) := by
  rw [firstFault, List.find?_map, Option.map_map]
  rfl

theorem ownRows_cause_ne {i : Instr} {s : State} {r : FaultRow} (h : r ∈ ownRows i s) :
    r.2.1 ≠ .registerIndexOutOfRange := by
  unfold ownRows at h
  split at h <;> simp_all

/-- A bad operand is the first fault of the instruction, before its own check. -/
theorem firstFault_executionRows_of_bad {i : Instr} {b : Byte}
    (h : (checkedOperands i).find? (fun b => decide (8 ≤ b.toNat)) = some b) (s : State) :
    firstFault (executionRows i s) = some (.registerIndexOutOfRange, b.toNat) := by
  rw [executionRows, firstFault_append, firstFault_map_indexRow, h]
  rfl

/-- Without a bad operand the first fault of the instruction has another cause. -/
theorem firstFault_executionRows_of_legal {i : Instr} {s : State} {cause : Cause} {info : Nat}
    (h : (checkedOperands i).find? (fun b => decide (8 ≤ b.toNat)) = none)
    (hfault : firstFault (executionRows i s) = some (cause, info)) : cause ≠ .registerIndexOutOfRange := by
  rw [executionRows, firstFault_append, firstFault_map_indexRow, h] at hfault
  exact ownRows_cause_ne (mem_of_firstFault hfault)

/-! ### The rows of the table -/

/-- Where an operand byte does not exist, rows 2 and 3 of R187 come first. -/
theorem firstFault_assignedRows_overflows {s : State} {m : Mnemonic}
    (hcount : operandCount (opByte s) = m.format.operandCount)
    (hover : 255 < s.pc.toNat + m.format.operandCount) :
    firstFault (assignedRows s m) = some (.memoryOutOfRange, 256) := by
  have hpc := s.pc.isLt
  have hle := m.format.operandCount_le
  simp only [assignedRows, firstFault_cons, hcount, decide_eq_true_eq]
  split
  · rfl
  · exact if_pos (by omega)

/-- Where the operand bytes exist, rows 4 to 8 are the checks of the instruction that they make. For CALL the table
says 256 and the instruction PC + 2, which is 256 where the row fires. -/
theorem firstFault_assignedRows_fits {s : State} {m : Mnemonic}
    (hcount : operandCount (opByte s) = m.format.operandCount)
    (hfit : s.pc.toNat + m.format.operandCount ≤ 255) :
    firstFault (assignedRows s m) = firstFault (executionRows (m.build (byteA s) (byteB s)) s) := by
  have hrowA : ¬(1 ≤ m.format.operandCount ∧ 255 < s.pc.toNat + 1) := by omega
  have hrowB : ¬(m.format.operandCount = 2 ∧ 255 < s.pc.toNat + 2) := by omega
  simp only [assignedRows, hcount, hrowA, hrowB, decide_false]
  cases m
  case call =>
    have hpc : s.pc.toNat + 1 ≤ 255 := hfit
    change firstFault [indexRow (byteA s), (decide (255 < s.pc.toNat + 2), .memoryOutOfRange, 256)] =
      firstFault [indexRow (byteA s), (decide (255 < s.pc.toNat + 2), .memoryOutOfRange, s.pc.toNat + 2)]
    by_cases hlink : 255 < s.pc.toNat + 2
    · rw [show s.pc.toNat + 2 = 256 by omega]
    · rw [decide_eq_false hlink]
      rfl
  all_goals rfl

/-- An unassigned byte is the one check of such a tick (row 1 of R187). -/
theorem firstFault_rowsBeforeEffects_unassigned {s : State} (h : opcodeMap.lookup (opByte s) = none) :
    firstFault (rowsBeforeEffects s) = some (.invalidOpcode, (opByte s).toNat) := by
  rw [rowsBeforeEffects, h]
  rfl

theorem rowsBeforeEffects_assigned {s : State} {m : Mnemonic} (h : opcodeMap.lookup (opByte s) = some m) :
    rowsBeforeEffects s = assignedRows s m := by
  rw [rowsBeforeEffects, h]

/-- The advance is the last check of the table. -/
theorem firstFault_allRows_assigned {s : State} {m : Mnemonic} (h : opcodeMap.lookup (opByte s) = some m) :
    firstFault (allRows s) = (firstFault (rowsBeforeEffects s)).or (firstFault [advanceRow s m]) := by
  rw [rowsBeforeEffects_assigned h, ← firstFault_append, allRows, h]

/-- A fault of the rows before the effects is the first of all. -/
theorem firstFault_allRows_of_before {s : State} {x : Cause × Nat} (h : firstFault (rowsBeforeEffects s) = some x) :
    firstFault (allRows s) = some x := by
  cases hl : opcodeMap.lookup (opByte s) with
  | none => rw [← h, allRows, rowsBeforeEffects, hl]
  | some m => rw [firstFault_allRows_assigned hl, h, Option.some_or]

end Sys2Proof.Claims
end

section
namespace Sys2Proof.Machine

open Sys2Proof.Claims

/-! ### The effect of an instruction, told by its first fault -/

/-- An effect raises the fault it is given; without one it leaves PC, RUN and ERR to the end of the tick, and leaves
the sequence or falls through as `leaves` says. -/
inductive Effect.Reports (s : State) (leaves : Bool) : Option (Cause × Nat) → Effect → Prop
  | raised {e : Exception} {info : Nat} (hinfo : e.info = BitVec.ofNat 9 info) :
      Effect.Reports s leaves (some (e.cause, info)) (.raised e)
  | fallThrough {t : State} (hseq : leaves = false) (hpc : t.pc = s.pc) (hrun : t.run = s.run)
      (herr : t.err = s.err) : Effect.Reports s leaves none (.fallThrough t)
  | taken {t : State} {target : Byte} (hseq : leaves = true) (hrun : t.run = s.run) (herr : t.err = s.err) :
      Effect.Reports s leaves none (.taken t target)
  | halt {t : State} (hseq : leaves = true) (herr : t.err = s.err) : Effect.Reports s leaves none (.halt t)

section
variable {s : State} {leaves : Bool} {rows : List FaultRow}

/-- An exception that reports a byte, widened to 9 bits. -/
theorem raised_reports {e : Exception} {b : Byte} (hinfo : e.info = b.setWidth 9) :
    Effect.Reports s leaves (some (e.cause, b.toNat)) (.raised e) :=
  .raised (hinfo.trans (BitVec.ofNat_toNat ..).symm)

/-- The index check comes first, then the checks of the continuation (R106). -/
theorem withReg_reports {a : Byte} {k : Fin 8 → Effect}
    (h : ∀ ha : a.toNat < 8, (k ⟨a.toNat, ha⟩).Reports s leaves (firstFault rows)) :
    (withReg a k).Reports s leaves (firstFault (indexRow a :: rows)) := by
  rw [indexRow, firstFault_cons]
  rcases withReg_cases a k with ⟨ha, hk⟩ | ⟨ha, hk⟩ <;> rw [hk]
  · rw [decide_eq_false (Nat.not_le.mpr ha)]
    exact h ha
  · rw [decide_eq_true ha]
    exact raised_reports (e := .registerIndexOutOfRange a) rfl

theorem withRegs_reports {a b : Byte} {k : Fin 8 → Fin 8 → Effect}
    (h : ∀ (ha : a.toNat < 8) (hb : b.toNat < 8),
      (k ⟨a.toNat, ha⟩ ⟨b.toNat, hb⟩).Reports s leaves (firstFault rows)) :
    (withRegs a b k).Reports s leaves (firstFault (indexRow a :: indexRow b :: rows)) :=
  withReg_reports fun ha => withReg_reports fun hb => h ha hb

/-- DIV and MOD check their divisor after the operands (R134, R135, R182). -/
theorem aluTwoSource_reports_zero {op : AluOp} {a b : Byte} {e : AluError} {f : Byte → Byte → Byte}
    (hzero : ∀ x, aluApply op x 0 = .error e) (hok : ∀ x {y}, y ≠ 0 → aluApply op x y = .ok (f x y)) :
    (aluTwoSource op a b s).Reports s false (firstFault [indexRow a, indexRow b,
      (operandValue s b == 0, (e.exception s.opcode).cause, (opByte s).toNat)]) := by
  refine withRegs_reports fun ha hb => ?_
  rw [firstFault_cons, operandValue_legal hb]
  by_cases h0 : s.reg ⟨b.toNat, hb⟩ = 0
  · rw [h0, hzero]
    exact raised_reports (e.info_exception _)
  · rw [hok _ h0, beq_false_of_ne h0]
    exact .fallThrough rfl rfl rfl rfl

theorem jumpWhen_reports (cond : Bool) (a : Byte) :
    (jumpWhen cond a s).Reports s cond (firstFault [indexRow a]) :=
  withReg_reports fun _ => by
    cases cond
    · exact .fallThrough rfl rfl rfl rfl
    · exact .taken rfl rfl rfl

end

/-- CALL checks its return address after its operand (R163). -/
theorem call_reports (a : Byte) (s : State) :
    ∃ f : Effect, exec (.call a) s = complete 1 s f ∧
      f.Reports s true (firstFault (executionRows (.call a) s)) := by
  refine ⟨_, rfl, withReg_reports fun _ => ?_⟩
  show Effect.Reports s true (firstFault [(decide (255 < s.pc.toNat + 2), .memoryOutOfRange, s.pc.toNat + 2)]) _
  by_cases hfits : s.pc.toNat + 2 ≤ 255
  · rw [if_pos ((returnAddr_fits_iff s).mpr hfits), decide_eq_false (Nat.not_lt.mpr hfits)]
    exact .taken rfl rfl rfl
  · rw [if_neg (mt (returnAddr_fits_iff s).mp hfits), decide_eq_true (Nat.lt_of_not_le hfits)]
    refine .raised (e := .memoryOutOfRange (returnAddr s)) ?_
    rw [← returnAddr_toNat, BitVec.ofNat_toNat, BitVec.setWidth_eq]
    rfl

/-- Every instruction raises the first fault of its checks, and leaves the sequence as `leavesSequence` says if there
is none. -/
theorem exec_reports (i : Instr) (s : State) :
    ∃ f : Effect, exec i s = complete i.operandBytes.length s f ∧
      f.Reports s (leavesSequence i.mnemonic s.fl) (firstFault (executionRows i s)) := by
  cases i
  case call a => exact call_reports a s
  all_goals refine ⟨_, rfl, ?_⟩
  case nop => exact .fallThrough rfl rfl rfl rfl
  case hlt => exact .halt rfl rfl
  case ret => exact .taken rfl rfl rfl
  case int | iret => exact raised_reports (e := .unimplementedInstruction s.opcode) rfl
  case jmp | jeq | jne | jgt | jlt => exact jumpWhen_reports ..
  case div => exact aluTwoSource_reports_zero (e := .divideByZero) (fun _ => rfl) aluApply_div_of_ne_zero
  case mod => exact aluTwoSource_reports_zero (e := .moduloByZero) (fun _ => rfl) aluApply_mod_of_ne_zero
  case inc | dec | not | ldi | prn | pra | push | pop =>
    exact withReg_reports fun _ => .fallThrough rfl rfl rfl rfl
  case add | sub | mul | and | or | xor | shl | shr | ld | st | cmp =>
    exact withRegs_reports fun _ _ => .fallThrough rfl rfl rfl rfl

/-! ### The end of the tick -/

/-- The state after a tick in `s`: the fault is recorded at PC, which stays, or there is none and ERR stays. -/
def Recorded (s t : State) : Option (Cause × Nat) → Prop
  | none => t.run ≠ .errorHalted ∧ t.err = s.err
  | some (cause, info) => t.run = .errorHalted ∧ t.err = ⟨cause, s.pc, BitVec.ofNat 9 info⟩ ∧ t.pc = s.pc

theorem advance_err (n : Nat) (s : State) :
    (advance n s).err = s.err ∨ (advance n s).err.cause = .memoryOutOfRange := by
  rw [advance]
  split
  · exact .inl rfl
  · exact .inr rfl

section
variable {s : State} {leaves : Bool} {f : Effect}

/-- A fault before the effects is the entry of R186: nothing else changes (R188). -/
theorem Effect.Reports.takes {cause : Cause} {info : Nat} (h : f.Reports s leaves (some (cause, info))) (n : Nat) :
    Takes (complete n s f) s cause info := by
  cases h with
  | raised hinfo => exact takes_takeException _ s hinfo

/-- Without a fault ERR stays, unless the advance records an address. -/
theorem Effect.Reports.err_finish (h : f.Reports s leaves none) (n : Nat) :
    (f.finish n s).err = s.err ∨ (f.finish n s).err.cause = .memoryOutOfRange := by
  cases h with
  | @fallThrough t _ _ _ herr => exact herr ▸ advance_err n t
  | taken _ _ herr => exact .inl herr
  | halt _ herr => exact .inl herr

/-- Without a fault before the effects, the advance is the one check left (R110). -/
theorem Effect.Reports.recorded {m : Mnemonic} {n : Nat} (h : f.Reports s (leavesSequence m s.fl) none)
    (hr : s.run = .running) (hn : operandCount (opByte s) = n) (hfit : s.pc.toNat + n ≤ 255) :
    Recorded s (f.finish n s) (firstFault [advanceRow s m]) := by
  rw [advanceRow, firstFault_cons, hn]
  cases h with
  | taken hseq hrun herr =>
    rw [hseq]
    exact ⟨by simp [Effect.finish, hrun, hr], herr⟩
  | halt hseq herr =>
    rw [hseq]
    exact ⟨by simp [Effect.finish], herr⟩
  | @fallThrough t hseq hpc hrun herr =>
    rw [hseq, Effect.finish]
    by_cases hover : 255 < s.pc.toNat + n + 1
    · rw [decide_eq_true hover, advance_overflows (by rw [hpc]; omega)]
      exact ⟨rfl, by rw [takeException_err, hpc]; rfl, hpc⟩
    · rw [decide_eq_false hover, advance_fits (by rw [hpc]; omega)]
      exact ⟨by simp [hrun, hr], herr⟩

end

/-- Everything a step in RUNNING can do, told by the table of R187: it takes the first fault of the checks before the
effects, or completes an effect that has none. -/
theorem step_reports {s : State} (hr : s.run = .running) :
    (∃ cause info, firstFault (rowsBeforeEffects s) = some (cause, info) ∧ Takes (step s) s cause info) ∨
    (∃ m f, firstFault (rowsBeforeEffects s) = none ∧ opcodeMap.lookup (opByte s) = some m ∧
      s.pc.toNat + operandCount (opByte s) ≤ 255 ∧ step s = complete (operandCount (opByte s)) s f ∧
      f.Reports s (leavesSequence m s.fl) none) := by
  rcases step_cases s with ⟨hn, -⟩ | ⟨-, hl, -⟩ | ⟨m, -, hm, hover, -⟩ | ⟨m, -, hm, hfit, hstep⟩
  · exact absurd hr hn
  · exact .inl ⟨_, _, firstFault_rowsBeforeEffects_unassigned hl, takes_invalidOpcode hr hl⟩
  all_goals
    have hop : opByte s = opcodeMap m := hm
    have hcount : operandCount (opByte s) = m.format.operandCount := hop ▸ opcodeMap_count m
    have hl : opcodeMap.lookup (opByte s) = some m := hop ▸ opcodeMap_valid.lookup m
    have hrows := rowsBeforeEffects_assigned hl
  · obtain ⟨-, htakes⟩ := operandFetchTakesExactlyTheCountOrFaults s m hr hm
    exact .inl ⟨_, _, hrows ▸ firstFault_assignedRows_overflows hcount hover, htakes (opcodeMap_count m ▸ hover)⟩
  · have hfault := firstFault_assignedRows_fits hcount hfit
    obtain ⟨f, hexec, hreports⟩ := exec_reports (m.build (byteA s) (byteB s)) s
    rw [← hfault, Mnemonic.mnemonic_build] at hreports
    rw [Mnemonic.build_length] at hexec
    have hdone := hstep.trans hexec
    rw [hrows, hcount]
    cases hfirst : firstFault (assignedRows s m) with
    | none => exact .inr ⟨m, f, rfl, hl, hfit, hdone, hfirst ▸ hreports⟩
    | some x => exact .inl ⟨x.1, x.2, rfl, hdone ▸ (hfirst ▸ hreports).takes _⟩

end Sys2Proof.Machine
end

/-! ## The exceptions' statements (60_exceptions) -/

section
namespace Sys2Proof.Claims

open Sys2Proof.Machine

/-- Settles O37: a bad operand is the first fault of the instruction; without one, what is recorded has another
cause. -/
theorem registerIndexCheckReportsTheFirstBadOperand : Obligations.RegisterIndexCheckReportsTheFirstBadOperand := by
  intro i s
  obtain ⟨f, hexec, hreports⟩ := exec_reports i s
  rw [hexec]
  refine ⟨fun b hbad => ?_, fun hlegal => ⟨_, rfl, fun hcause => ?_⟩⟩
  · exact (firstFault_executionRows_of_bad hbad s ▸ hreports).takes _
  · cases hfault : firstFault (executionRows i s) with
    | none => exact ((hfault ▸ hreports).err_finish _).resolve_right (by simp [hcause])
    | some x =>
      obtain ⟨cause, info⟩ := x
      have htaken := Host.Outcome.next.inj ((hfault ▸ hreports).takes i.operandBytes.length)
      rw [htaken] at hcause
      exact absurd hcause (firstFault_executionRows_of_legal hlegal hfault)

/-- Settles O38: the first fault before the effects is the first of all; without one the advance decides. -/
theorem tickRaisesTheFirstFaultOfTheOrder : Obligations.TickRaisesTheFirstFaultOfTheOrder := by
  intro s hr
  rcases step_reports hr with ⟨cause, info, hfault, htakes⟩ | ⟨m, f, hnone, hl, hfit, hstep, hreports⟩
  · rw [firstFault_allRows_of_before hfault]
    exact ⟨_, htakes, rfl, rfl, rfl⟩
  · rw [firstFault_allRows_assigned hl, hnone, Option.none_or]
    exact ⟨_, hstep, hreports.recorded hr rfl hfit⟩

/-- Settles O39: a step that has a fault before the effects takes it. -/
theorem exceptionsBeforeTheEffectsArePrecise : Obligations.ExceptionsBeforeTheEffectsArePrecise := by
  intro s cause info hr hfault
  rcases step_reports hr with ⟨_, _, hfault', htakes⟩ | ⟨_, _, hnone, -⟩
  · obtain ⟨rfl, rfl⟩ := Prod.mk.inj (Option.some.inj (hfault.symm.trans hfault'))
    exact htakes
  · exact absurd (hfault.symm.trans hnone) (by simp)

/-- Settles O8: the codes as `Cause.code` numbers them. -/
theorem causeCodesAreThoseOfTheTable : Obligations.CauseCodesAreThoseOfTheTable :=
  ⟨rfl, rfl, rfl, rfl, rfl, rfl, rfl⟩

end Sys2Proof.Claims
end
